-- ==== Sys2Proof/Word.lean ====
section
/-! DEFINITION. The widths of the core (00_scope R5, R7, R8; 30_encoding R71): words, bytes and the fields of an instruction. -/

namespace Sys2Proof

/-- A 16-bit value: an instruction word, `pc`, `I`, a return address (R5). -/
abbrev Word := BitVec 16

/-- An 8-bit value: a V register, a timer, a byte of memory, the immediate `nn` (R5, R71). -/
abbrev Byte := BitVec 8

/-- The number of a V register: the field `x` or `y` (R71). -/
abbrev Reg := BitVec 4

/-- The 4-bit row count `n` of Dxyn (R71). -/
abbrev Count := BitVec 4

/-- The 12-bit immediate `nnn` (R71). -/
abbrev Imm12 := BitVec 12

/-- The number of VF, general register 15 and flag register (10_state R22). -/
abbrev VF : Reg := 0xF#4

end Sys2Proof
end

