-- ==== Sys2Proof/Config.lean ====
section
/-! DEFINITION. What an implementation of the core fixes: the parameters of 00_scope R6, and the one value the spec leaves free, the random byte (10_state R32). -/

namespace Sys2Proof

/-- FONT_VARIANT (R6): whether glyph '2' is the standard one or the repository's copy of glyph '3' (70_reset R241). -/
inductive FontVariant where
  | standard
  | source
deriving DecidableEq, Repr

/-- VF_X_EQ_F (R6): what 8xy6 and 8xyE leave in VF when their destination is VF (42_register_alu R141). -/
inductive VfOrder where
  | flagWins
  | statementOrder
deriving DecidableEq, Repr

/-- The parameters of 00_scope R6, with the defaults that rule gives. DESIGN CHOICE (log 1): a state carries
its configuration, so that a claim about every state is a claim about every configuration. -/
structure Config where
  /-- STACK_LIMIT; `none` is `unbounded` (D4). -/
  stackLimit : Option Nat := some 16
  /-- OR_8XY1: does the core recognise 8xy1 (D6). -/
  or8xy1 : Bool := false
  /-- FONT_VARIANT (D19), read by construction alone. -/
  font : FontVariant := .standard
  /-- VF_X_EQ_F (D21). -/
  vfOrder : VfOrder := .flagWins
deriving DecidableEq, Repr

/-- Every parameter at the default of 00_scope R6. -/
def Config.default : Config where
  stackLimit := some 16
  or8xy1 := false
  font := .standard
  vfOrder := .flagWins

/-- The same configuration with every row of the opcode table recognised. -/
def Config.allRows (cfg : Config) : Config := { cfg with or8xy1 := true }

/-- The parameter PRNG (R6, 10_state R32): the value of the draw numbered `drawn` of the generator seeded with
`seed`. A free value, without a body: any byte on every draw, whatever the earlier draws gave (log 2). -/
opaque Config.randomByte (seed drawn : Nat) : Byte

end Sys2Proof
end

