-- ==== Sys2Proof/WellFormed.lean ====
section
/-! DEFINITION. Which instructions and configurations are well formed. The widths of the operands are in their types; what is left to check is that the row is enabled (30_encoding R77) and that STACK_LIMIT is at least 1 (00_scope R6). -/

namespace Sys2Proof

/-- Is the instruction's row of 30_encoding R73 enabled under `cfg`? Only 8xy1 depends on a parameter (R77). -/
def Instr.wf (cfg : Config) : Instr → Bool
  | .orReg _ _ => cfg.or8xy1
  | .cls | .ret | .jp _ | .call _ | .seImm _ _ | .sneImm _ _ | .seReg _ _ | .ldImm _ _ | .addImm _ _ | .ldReg _ _
  | .andReg _ _ | .xorReg _ _ | .addReg _ _ | .sub _ _ | .shr _ _ | .subn _ _ | .shl _ _ | .sneReg _ _
  | .ldI _ | .jpV0 _ | .rnd _ _ | .drw _ _ _ | .skp _ | .sknp _ | .ldVxDt _ | .ldVxK _ | .ldDtVx _ | .ldStVx _
  | .addI _ | .ldF _ | .ldB _ | .store _ | .load _ => true

/-- STACK_LIMIT is a natural number of at least 1, or unbounded (00_scope R6). -/
def Config.wf (cfg : Config) : Bool :=
  match cfg.stackLimit with
  | none => true
  | some n => decide (1 ≤ n)

end Sys2Proof
end

