-- ==== Sys2Proof/Decode.lean ====
section
/-! DEFINITION. Decoding, by the decode map of 30_encoding R73, and encoding, from the same map. -/

namespace Sys2Proof

/-- The field `x`, `w[11:8]` (30_encoding R71). -/
def fieldX (w : Word) : Reg := w.extractLsb' 8 4

/-- The field `y`, `w[7:4]` (R71). -/
def fieldY (w : Word) : Reg := w.extractLsb' 4 4

/-- The field `n`, `w[3:0]` (R71). -/
def fieldN (w : Word) : Count := w.extractLsb' 0 4

/-- The field `nn`, `w[7:0]` (R71). -/
def fieldNn (w : Word) : Byte := w.extractLsb' 0 8

/-- The field `nnn`, `w[11:0]` (R71). -/
def fieldNnn (w : Word) : Imm12 := w.extractLsb' 0 12

/-- A row of the decode map: the columns `match` and `mask` of 30_encoding R73, and the instruction it reads
from a word that it matches. -/
structure Row where
  value : Word
  mask : Word
  build : Word → Instr

/-- "A row matches when `w & mask = match`" (R73). -/
def Row.matches (r : Row) (w : Word) : Bool := w &&& r.mask == r.value

/-- Families 0 to 7 of 30_encoding R73. -/
def rowsLow : List Row := [
  ⟨0x00E0, 0xFFFF, fun _ => .cls⟩,
  ⟨0x00EE, 0xFFFF, fun _ => .ret⟩,
  ⟨0x1000, 0xF000, fun w => .jp (fieldNnn w)⟩,
  ⟨0x2000, 0xF000, fun w => .call (fieldNnn w)⟩,
  ⟨0x3000, 0xF000, fun w => .seImm (fieldX w) (fieldNn w)⟩,
  ⟨0x4000, 0xF000, fun w => .sneImm (fieldX w) (fieldNn w)⟩,
  ⟨0x5000, 0xF00F, fun w => .seReg (fieldX w) (fieldY w)⟩,
  ⟨0x6000, 0xF000, fun w => .ldImm (fieldX w) (fieldNn w)⟩,
  ⟨0x7000, 0xF000, fun w => .addImm (fieldX w) (fieldNn w)⟩]

/-- Family 8 of 30_encoding R73. -/
def rowsAlu : List Row := [
  ⟨0x8000, 0xF00F, fun w => .ldReg (fieldX w) (fieldY w)⟩,
  ⟨0x8001, 0xF00F, fun w => .orReg (fieldX w) (fieldY w)⟩,
  ⟨0x8002, 0xF00F, fun w => .andReg (fieldX w) (fieldY w)⟩,
  ⟨0x8003, 0xF00F, fun w => .xorReg (fieldX w) (fieldY w)⟩,
  ⟨0x8004, 0xF00F, fun w => .addReg (fieldX w) (fieldY w)⟩,
  ⟨0x8005, 0xF00F, fun w => .sub (fieldX w) (fieldY w)⟩,
  ⟨0x8006, 0xF00F, fun w => .shr (fieldX w) (fieldY w)⟩,
  ⟨0x8007, 0xF00F, fun w => .subn (fieldX w) (fieldY w)⟩,
  ⟨0x800E, 0xF00F, fun w => .shl (fieldX w) (fieldY w)⟩]

/-- Families 9 to E of 30_encoding R73. -/
def rowsHigh : List Row := [
  ⟨0x9000, 0xF00F, fun w => .sneReg (fieldX w) (fieldY w)⟩,
  ⟨0xA000, 0xF000, fun w => .ldI (fieldNnn w)⟩,
  ⟨0xB000, 0xF000, fun w => .jpV0 (fieldNnn w)⟩,
  ⟨0xC000, 0xF000, fun w => .rnd (fieldX w) (fieldNn w)⟩,
  ⟨0xD000, 0xF000, fun w => .drw (fieldX w) (fieldY w) (fieldN w)⟩,
  ⟨0xE09E, 0xF0FF, fun w => .skp (fieldX w)⟩,
  ⟨0xE0A1, 0xF0FF, fun w => .sknp (fieldX w)⟩]

/-- Family F of 30_encoding R73. -/
def rowsMisc : List Row := [
  ⟨0xF007, 0xF0FF, fun w => .ldVxDt (fieldX w)⟩,
  ⟨0xF00A, 0xF0FF, fun w => .ldVxK (fieldX w)⟩,
  ⟨0xF015, 0xF0FF, fun w => .ldDtVx (fieldX w)⟩,
  ⟨0xF018, 0xF0FF, fun w => .ldStVx (fieldX w)⟩,
  ⟨0xF01E, 0xF0FF, fun w => .addI (fieldX w)⟩,
  ⟨0xF029, 0xF0FF, fun w => .ldF (fieldX w)⟩,
  ⟨0xF033, 0xF0FF, fun w => .ldB (fieldX w)⟩,
  ⟨0xF055, 0xF0FF, fun w => .store (fieldX w)⟩,
  ⟨0xF065, 0xF0FF, fun w => .load (fieldX w)⟩]

/-- The decode map of 30_encoding R73, its 34 rows. -/
def rows : List Row := rowsLow ++ rowsAlu ++ rowsHigh ++ rowsMisc

/-- The row of the decode map that a word matches, if any, as the instruction it stands for (R73, R75). -/
def decodeRow (w : Word) : Option Instr := (rows.find? (·.matches w)).map (·.build w)

/-- Why bytes are no instruction. -/
inductive Reject where
  /-- Fewer than two bytes: an instruction is one 16-bit word (30_encoding R70). -/
  | truncated
  /-- No row of the decode map matches the word (R76). -/
  | unrecognised (w : Word)
  /-- The word is 8xy1 and OR_8XY1 is false (R77). -/
  | disabled (w : Word)
deriving DecidableEq, Repr

/-- Decode a word under a configuration: the decode map (R73), with 8xy1 recognised only when OR_8XY1 (R77). -/
def decode (cfg : Config) (w : Word) : Except Reject Instr :=
  match decodeRow w with
  | none => .error (.unrecognised w)
  | some i => if i.wf cfg then .ok i else .error (.disabled w)

/-- The word whose first stored byte is `hi`: "the byte at the lower address is bits 15:8" (20_memory R56). -/
def wordOfBytes (hi lo : Byte) : Word := hi ++ lo

/-- Decode the instruction at the head of a list of bytes, big-endian, and give the bytes after it (R70, R56). -/
def decodeBytes (cfg : Config) : List Byte → Except Reject (Instr × List Byte)
  | hi :: lo :: rest =>
    match decode cfg (wordOfBytes hi lo) with
    | .ok i => .ok (i, rest)
    | .error e => .error e
  | [_] | [] => .error .truncated

/-- The word of an instruction (30_encoding R71, R73). -/
def encode : Instr → Word
  | .cls => 0x00E0#16
  | .ret => 0x00EE#16
  | .jp nnn => 0x1#4 ++ nnn
  | .call nnn => 0x2#4 ++ nnn
  | .seImm x nn => 0x3#4 ++ x ++ nn
  | .sneImm x nn => 0x4#4 ++ x ++ nn
  | .seReg x y => 0x5#4 ++ x ++ y ++ 0x0#4
  | .ldImm x nn => 0x6#4 ++ x ++ nn
  | .addImm x nn => 0x7#4 ++ x ++ nn
  | .ldReg x y => 0x8#4 ++ x ++ y ++ 0x0#4
  | .orReg x y => 0x8#4 ++ x ++ y ++ 0x1#4
  | .andReg x y => 0x8#4 ++ x ++ y ++ 0x2#4
  | .xorReg x y => 0x8#4 ++ x ++ y ++ 0x3#4
  | .addReg x y => 0x8#4 ++ x ++ y ++ 0x4#4
  | .sub x y => 0x8#4 ++ x ++ y ++ 0x5#4
  | .shr x y => 0x8#4 ++ x ++ y ++ 0x6#4
  | .subn x y => 0x8#4 ++ x ++ y ++ 0x7#4
  | .shl x y => 0x8#4 ++ x ++ y ++ 0xE#4
  | .sneReg x y => 0x9#4 ++ x ++ y ++ 0x0#4
  | .ldI nnn => 0xA#4 ++ nnn
  | .jpV0 nnn => 0xB#4 ++ nnn
  | .rnd x nn => 0xC#4 ++ x ++ nn
  | .drw x y n => 0xD#4 ++ x ++ y ++ n
  | .skp x => 0xE#4 ++ x ++ 0x9E#8
  | .sknp x => 0xE#4 ++ x ++ 0xA1#8
  | .ldVxDt x => 0xF#4 ++ x ++ 0x07#8
  | .ldVxK x => 0xF#4 ++ x ++ 0x0A#8
  | .ldDtVx x => 0xF#4 ++ x ++ 0x15#8
  | .ldStVx x => 0xF#4 ++ x ++ 0x18#8
  | .addI x => 0xF#4 ++ x ++ 0x1E#8
  | .ldF x => 0xF#4 ++ x ++ 0x29#8
  | .ldB x => 0xF#4 ++ x ++ 0x33#8
  | .store x => 0xF#4 ++ x ++ 0x55#8
  | .load x => 0xF#4 ++ x ++ 0x65#8

/-- The first stored byte of a word, its bits 15:8 (20_memory R56). -/
def highByte (w : Word) : Byte := w.extractLsb' 8 8

/-- The second stored byte of a word, its bits 7:0 (20_memory R56). -/
def lowByte (w : Word) : Byte := w.extractLsb' 0 8

/-- A word as the hardware stores it, high byte first (20_memory R56, 30_encoding R80). -/
def bytesOfWord (w : Word) : List Byte := [highByte w, lowByte w]

/-- An instruction as the hardware stores it. -/
def encodeBytes (i : Instr) : List Byte := bytesOfWord (encode i)

/-- The word given by the low `nbits` bits of `w`, every higher bit 0. -/
def tableWord (nbits w : Nat) : Word := BitVec.ofNat 16 (w % 2 ^ nbits)

/-- What the decoder reads from an instruction whose bits are `w`, stored as the hardware stores it. It stands
for the opcode table, so every row of the table is enabled (log 3). -/
def decodeTableWord (nbits w : Nat) : Option Instr :=
  match decodeBytes Config.default.allRows (bytesOfWord (tableWord nbits w)) with
  | .ok (i, _) => some i
  | .error _ => none

end Sys2Proof
end

