-- ==== Sys2Proof/Machine/State.lean ====
section
/-! DEFINITION. The state of the core (10_state R20), the faults a STEP returns (60_exceptions R210), and the state after construction (70_reset R242). -/

namespace Sys2Proof.Machine

/-- `mem` (10_state R33) in one canonical form: the bytes that differ from what an unlisted address reads as, at
strictly rising addresses (`Memory.wf`, log 6). -/
abbrev Memory := List Host.Cell

/-- `fb` (10_state R30): `fb[row][column]`, row 0 at the top and column 0 at the left; true is on. -/
abbrev Framebuffer := Vector (Vector Bool 64) 32

/-- The hidden state of the generator (10_state R32), as far as the spec fixes it: the seed it was constructed
with and how many values it has given. It is the argument of the free value `Config.randomByte` (log 2). -/
structure Prng where
  seed : Nat
  drawn : Nat
deriving DecidableEq, Repr

/-- The state record of 10_state R20. -/
structure State where
  /-- V0 to VF (R21). -/
  V : Vector Byte 16
  /-- The address of the first byte of the instruction that executes (R23, R24). -/
  pc : Word
  /-- The index register, never masked (R25, R26). -/
  I : Word
  /-- The call stack, its newest entry last (R27). -/
  stack : List Word
  /-- The delay timer (R28). -/
  DT : Byte
  /-- The sound timer (R29). -/
  ST : Byte
  /-- The 4096 bytes of memory (R33). -/
  mem : Memory
  /-- The framebuffer (R30). -/
  fb : Framebuffer
  /-- The keypad; true is pressed (R31). -/
  keys : Vector Bool 16
  /-- The pseudo-random generator (R32). -/
  prng : Prng
  /-- The parameters of 00_scope R6. Not the spec's state: the model's own field, which nothing writes (log 1). -/
  cfg : Config
deriving DecidableEq, Repr

/-- What a STEP returns when it does not return `Ok` (60_exceptions R210, R216): the record, with `pc` the
address of the faulting instruction and `w` its word, and `left`, the state the fault leaves. The core goes on
from `left` when the host calls it again (R219), so `left` holds the writes made before the fault (R217). -/
inductive Fault where
  /-- Code 1 (R211): an address of 4096 or more. Raised by the fetch (then `w` is absent), Dxyn, Fx33, Fx55 and
  Fx65, and by Fx1E on a sum above 0xFFFF. The spec's own fault, with the spec's effect: safe. -/
  | addressing (pc : Word) (w : Option Word) (addr : Nat) (left : State)
  /-- Code 2 (R212): the word is no instruction. Raised by the decoder, and by 8xy1 when OR_8XY1 is false. The
  spec's own fault: safe. -/
  | unknownOpcode (pc w : Word) (left : State)
  /-- Code 3 (R213): 00EE on the empty stack. The spec's own fault: safe. -/
  | stackUnderflow (pc w : Word) (left : State)
  /-- Code 4 (R214): 2nnn with STACK_LIMIT entries on the stack. The spec's own fault: safe. -/
  | stackOverflow (pc w : Word) (left : State)
  /-- Code 5 (R215): Ex9E or ExA1 with a key code of 16 or more. The spec's own fault: safe. -/
  | keypadUsage (pc w : Word) (key : Byte) (left : State)
deriving DecidableEq, Repr

/-- Why a step has no meaning. -/
inductive Refusal where
  /-- An arm of `exec` without a meaning. No arm answers so in this model: safe. -/
  | notModelled (mnemonic : String)
deriving DecidableEq, Repr

/-- The core right after construction with the empty image and seed 0, every parameter at its default
(70_reset R242, R244; 00_scope R6). Memory lists nothing: the font at 0 to 79 and zero elsewhere is what an
unlisted address reads as. The seed is the model's choice (log 2). -/
def State.reset : State where
  V := Vector.replicate 16 0
  pc := 0x200
  I := 0
  stack := []
  DT := 0
  ST := 0
  mem := []
  fb := Vector.replicate 32 (Vector.replicate 64 false)
  keys := Vector.replicate 16 false
  prng := { seed := 0, drawn := 0 }
  cfg := Config.default

end Sys2Proof.Machine
end

