-- ==== Sys2Proof/Machine/Ops.lean ====
section
/-! DEFINITION. The named operations over the state (the primitives of 00_scope R9): registers, memory, fetch, the call stack, the framebuffer, the keypad, the random draw, and raising a fault. -/

namespace Sys2Proof.Machine

/-- What a STEP answers. -/
abbrev Result := Host.Outcome State Fault Refusal

/-! ## General registers (10_state R21) -/

/-- `V[x]`. -/
def readV (x : Reg) (s : State) : Byte := s.V[x.toNat]'x.isLt

/-- `V[x] <- b`. -/
def writeV (x : Reg) (b : Byte) (s : State) : State := { s with V := s.V.set x.toNat b x.isLt }

/-! ## The program counter (10_state R24, 00_scope R12) -/

/-- `pc <- old(pc) + 2`, the end of every sequential instruction (00_scope R12). -/
def advance (s : State) : State := { s with pc := s.pc + 2 }

/-- A skip instruction's end: `+ 4` when the condition holds and `+ 2` when not (41_control_flow R128). -/
def skipIf (c : Bool) (s : State) : State := { s with pc := if c then s.pc + 4 else s.pc + 2 }

/-- `pc <- target`. -/
def jumpTo (target : Word) (s : State) : State := { s with pc := target }

/-! ## The font (70_reset R241) -/

/-- The standard glyphs '0' to '7', 5 bytes each (R241). -/
def fontLow : List Byte := [
  0xF0, 0x90, 0x90, 0x90, 0xF0,
  0x20, 0x60, 0x20, 0x20, 0x70,
  0xF0, 0x10, 0xF0, 0x80, 0xF0,
  0xF0, 0x10, 0xF0, 0x10, 0xF0,
  0x90, 0x90, 0xF0, 0x10, 0x10,
  0xF0, 0x80, 0xF0, 0x10, 0xF0,
  0xF0, 0x80, 0xF0, 0x90, 0xF0,
  0xF0, 0x10, 0x20, 0x40, 0x40]

/-- The standard glyphs '8' to 'F', 5 bytes each (R241). -/
def fontHigh : List Byte := [
  0xF0, 0x90, 0xF0, 0x90, 0xF0,
  0xF0, 0x90, 0xF0, 0x10, 0xF0,
  0xF0, 0x90, 0xF0, 0x90, 0x90,
  0xE0, 0x90, 0xE0, 0x90, 0xE0,
  0xF0, 0x80, 0x80, 0x80, 0xF0,
  0xE0, 0x90, 0x90, 0x90, 0xE0,
  0xF0, 0x80, 0xF0, 0x80, 0xF0,
  0xF0, 0x80, 0xF0, 0x80, 0x80]

/-- The 80 font bytes under `FONT_VARIANT = standard` (R241). -/
def font : List Byte := fontLow ++ fontHigh

/-! ## Memory (20_memory R50 to R56) -/

/-- MEM_SIZE (00_scope R5). -/
def memSize : Nat := 4096

/-- What an address that memory does not list reads as: the reset contents without an image, the standard font
at 0 to 79 and zero elsewhere (20_memory R54, 70_reset R240; log 6). -/
def unlisted (a : Nat) : Byte := font.getD a 0

/-- The byte at an address. -/
def Memory.read : Memory → Nat → Byte
  | [], a => unlisted a
  | (k, b) :: m, a => if a = k then b else if a < k then unlisted a else Memory.read m a

/-- Put an entry before a memory, unless its byte is what its address reads as unlisted. -/
def Memory.cons (a : Nat) (b : Byte) (m : Memory) : Memory := if b = unlisted a then m else (a, b) :: m

/-- Store a byte at an address, keeping the canonical form. -/
def Memory.write : Memory → Nat → Byte → Memory
  | [], a, b => Memory.cons a b []
  | (k, c) :: m, a, b =>
    if a < k then Memory.cons a b ((k, c) :: m)
    else if a = k then Memory.cons a b m
    else (k, c) :: Memory.write m a b

/-- The canonical form from `lo` up: strictly rising addresses below 4096, none at its unlisted byte. -/
def Memory.wfFrom : Nat → Memory → Bool
  | _, [] => true
  | lo, (k, b) :: m => decide (lo ≤ k) && decide (k < memSize) && decide (b ≠ unlisted k) && Memory.wfFrom (k + 1) m

/-- The canonical form of memory (log 6). -/
def Memory.wf (m : Memory) : Bool := Memory.wfFrom 0 m

/-- `MemRead(addr, 1)` (20_memory R51): the byte, or the address of the AddressingFault to raise. -/
def memRead (addr : Nat) (s : State) : Except Nat Byte :=
  if memSize ≤ addr then .error addr else .ok (s.mem.read addr)

/-- `MemWrite(addr, 1, b)` (20_memory R52): the state after it, or the address of the AddressingFault to raise. -/
def memWrite (addr : Nat) (b : Byte) (s : State) : Except Nat State :=
  if memSize ≤ addr then .error addr else .ok { s with mem := s.mem.write addr b }

/-- `Fetch16(pc)` (20_memory R56): the first byte, then the second, big-endian. -/
def fetch16 (s : State) : Except Nat Word :=
  match memRead s.pc.toNat s with
  | .error addr => .error addr
  | .ok hi =>
    match memRead (s.pc.toNat + 1) s with
    | .error addr => .error addr
    | .ok lo => .ok (wordOfBytes hi lo)

/-- How a sequence of accesses ends: all of them done with a value, or stopped at the first address out of
range, with the earlier writes in place (00_scope R10, 60_exceptions R217). -/
inductive Run (α : Type) where
  | done (a : α) (s : State)
  | stopped (addr : Nat) (left : State)
deriving DecidableEq, Repr

/-- Write bytes at `base`, `base + 1`, …, in that order (20_memory R58). -/
def storeBytes (base : Nat) : List Byte → State → Run Unit
  | [], s => .done () s
  | b :: bs, s =>
    match memWrite base b s with
    | .error addr => .stopped addr s
    | .ok s' => storeBytes (base + 1) bs s'

/-- Load `left` registers from `V[k]` up with the bytes from `base` up, in that order (43_index_memory R175). -/
def loadRegs (base k : Nat) : (left : Nat) → State → Run Unit
  | 0, s => .done () s
  | left + 1, s =>
    match memRead base s with
    | .error addr => .stopped addr s
    | .ok b => loadRegs (base + 1) (k + 1) left (writeV (BitVec.ofNat 4 k) b s)

/-! ## The call stack (10_state R27) -/

/-- `Push(v)`; `none` is StackOverflow, when the stack holds exactly STACK_LIMIT entries (R27; log 12). -/
def push (v : Word) (s : State) : Option State :=
  if s.cfg.stackLimit = some s.stack.length then none else some { s with stack := s.stack ++ [v] }

/-- `Pop()`, the newest entry and the state without it; `none` is StackUnderflow. -/
def pop (s : State) : Option (Word × State) :=
  match s.stack.getLast? with
  | none => none
  | some v => some (v, { s with stack := s.stack.dropLast })

/-! ## The framebuffer (10_state R30, 40_display R100 to R102) -/

/-- The pixel in row `r` and column `c`. -/
def Framebuffer.pixel (fb : Framebuffer) (r : Fin 32) (c : Fin 64) : Bool := (fb[r.val]'r.isLt)[c.val]'c.isLt

/-- Set the pixel in row `r` and column `c`. -/
def Framebuffer.setPixel (fb : Framebuffer) (r : Fin 32) (c : Fin 64) (on : Bool) : Framebuffer :=
  fb.set r.val ((fb[r.val]'r.isLt).set c.val on c.isLt) r.isLt

/-- Every pixel off. -/
def Framebuffer.blank : Framebuffer := Vector.replicate 32 (Vector.replicate 64 false)

/-- `FbClear()` (40_display R102). -/
def fbClear (s : State) : State := { s with fb := Framebuffer.blank }

/-- One turn of DrawRow's loop, for bit `b` counted from the most significant (40_display R100). -/
def drawBit (byte : Byte) (x : Nat) (row : Fin 32) (acc : Framebuffer × Bool) (b : Nat) : Framebuffer × Bool :=
  let col := Fin.ofNat 64 (x + b)
  let bit := byte.getLsbD (7 - b)
  let before := Framebuffer.pixel acc.1 row col
  (Framebuffer.setPixel acc.1 row col (before ^^ bit), acc.2 || (before && bit))

/-- `DrawRow(byte, x, y)` (40_display R100): the framebuffer after it, and the erasure Boolean. -/
def drawRow (byte : Byte) (x y : Nat) (fb : Framebuffer) : Framebuffer × Bool :=
  (List.range 8).foldl (drawBit byte x (Fin.ofNat 32 y)) (fb, false)

/-- The loop of Dxyn (40_display R104) from row `r`, with `left` rows to go: read a byte, draw it, go on. Its
value is whether a row reported an erasure. -/
def drawRows (base cx cy r : Nat) : (left : Nat) → (any : Bool) → State → Run Bool
  | 0, any, s => .done any s
  | left + 1, any, s =>
    match memRead (base + r) s with
    | .error addr => .stopped addr s
    | .ok byte =>
      let d := drawRow byte cx (cy + r) s.fb
      drawRows base cx cy (r + 1) left (any || d.2) { s with fb := d.1 }

/-! ## The keypad (44_timers_keypad R190, R194) -/

/-- Is key `k` pressed? No code of 16 or more is. -/
def keyAt (keys : Vector Bool 16) (k : Nat) : Bool := keys.toList.getD k false

/-- `KeyPressed(k)` (R190); `none` is KeypadUsageFault, a code of 16 or more. -/
def keyPressed (k : Byte) (s : State) : Option Bool :=
  if 16 ≤ k.toNat then none else some (keyAt s.keys k.toNat)

/-- The least pressed key, if any (R194). -/
def firstPressed (s : State) : Option Nat := (List.range 16).find? (keyAt s.keys)

/-! ## The random draw (10_state R32) -/

/-- `RandomByte()`: one value of the generator, and the state after the draw. -/
def randomByte (s : State) : Byte × State :=
  (Config.randomByte s.prng.seed s.prng.drawn, { s with prng := { s.prng with drawn := s.prng.drawn + 1 } })

/-! ## Raising a fault (60_exceptions R216, R217) -/

/-- End the instruction with a fault: the record holds `pc`, which the fault does not advance, and the word
(log 5); the state is left as the instruction's earlier writes made it. No trap is taken (R216). -/
def raise (f : Word → Word → State → Fault) (i : Instr) (s : State) : Result := .fault (f s.pc (encode i) s)

/-- `raise AddressingFault(addr)` in the execute phase. -/
def raiseAddressing (addr : Nat) : Instr → State → Result := raise fun pc w s => .addressing pc (some w) addr s

/-- `raise KeypadUsageFault(key)`. -/
def raiseKeypadUsage (key : Byte) : Instr → State → Result := raise fun pc w s => .keypadUsage pc w key s

/-- The end of an instruction that made a sequence of accesses: its fault, or what it does when all are done. -/
def Run.conclude {α : Type} (r : Run α) (i : Instr) (k : α → State → State) : Result :=
  match r with
  | .done a s => .next (k a s)
  | .stopped addr s => raiseAddressing addr i s

/-- The state a fault leaves, from which the core goes on (60_exceptions R219). -/
def Fault.left : Fault → State
  | .addressing _ _ _ s => s
  | .unknownOpcode _ _ s => s
  | .stackUnderflow _ _ s => s
  | .stackOverflow _ _ s => s
  | .keypadUsage _ _ _ s => s

/-- The same record with another state left: two faults with equal records are equal up to this. -/
def Fault.withLeft (l : State) : Fault → Fault
  | .addressing pc w addr _ => .addressing pc w addr l
  | .unknownOpcode pc w _ => .unknownOpcode pc w l
  | .stackUnderflow pc w _ => .stackUnderflow pc w l
  | .stackOverflow pc w _ => .stackOverflow pc w l
  | .keypadUsage pc w key _ => .keypadUsage pc w key l

/-- The numeric code of a fault (60_exceptions R210). -/
def Fault.code : Fault → Nat
  | .addressing _ _ _ _ => 1
  | .unknownOpcode _ _ _ => 2
  | .stackUnderflow _ _ _ => 3
  | .stackOverflow _ _ _ => 4
  | .keypadUsage _ _ _ _ => 5

/-- The `pc` of a fault's record (60_exceptions R210). -/
def Fault.pc : Fault → Word
  | .addressing pc _ _ _ => pc
  | .unknownOpcode pc _ _ => pc
  | .stackUnderflow pc _ _ => pc
  | .stackOverflow pc _ _ => pc
  | .keypadUsage pc _ _ _ => pc

/-! ## Placing an instruction -/

/-- The word stored where the next fetch reads, high byte first; unchanged where no fetch can succeed. -/
def placeWord (w : Word) (s : State) : State :=
  if s.pc.toNat + 1 < memSize then
    { s with mem := (s.mem.write s.pc.toNat (highByte w)).write (s.pc.toNat + 1) (lowByte w) }
  else s

/-- The configuration under which the word's row of the decode map is enabled (30_encoding R77; log 3). -/
def configFor (w : Word) (cfg : Config) : Config :=
  match decodeRow w with
  | none => cfg
  | some i => if i.wf cfg then cfg else cfg.allRows

end Sys2Proof.Machine
end

