-- ==== Sys2Proof/Machine/Operands.lean ====
section
/-! DEFINITION. The operand forms: immediates, the address `I + k`, the register list of Fx55, the decimal digits of Fx33, the glyph address of Fx29, and the 8-bit arithmetic of 42_register_alu R140. -/

namespace Sys2Proof.Machine

/-- `zext_16(nnn)` (30_encoding R72). -/
def zextImm (nnn : Imm12) : Word := nnn.setWidth 16

/-- The target of Bnnn, `V0 + nnn`, not masked (41_control_flow R127). -/
def indexedTarget (v0 : Byte) (nnn : Imm12) : Word := BitVec.ofNat 16 (v0.toNat + nnn.toNat)

/-- `u8(a + b)` (42_register_alu R140). -/
def add8 (a b : Byte) : Byte := BitVec.ofNat 8 (a.toNat + b.toNat)

/-- `u8(a + 256 - b)` (R140). -/
def sub8 (a b : Byte) : Byte := BitVec.ofNat 8 (a.toNat + 256 - b.toNat)

/-- `a >> 1`, a 0 coming in at bit 7 (R140). -/
def shr1 (a : Byte) : Byte := a >>> 1

/-- `u8(a << 1)`, bit 7 dropped (R140). -/
def shl1 (a : Byte) : Byte := a <<< 1

/-- The decimal digits of Fx33: hundreds, tens, units (43_index_memory R173). -/
def bcdDigits (v : Byte) : List Byte :=
  [BitVec.ofNat 8 (v.toNat / 100), BitVec.ofNat 8 (v.toNat / 10 % 10), BitVec.ofNat 8 (v.toNat % 10)]

/-- The glyph address of Fx29, `Vx × 5`, the register not masked (R172). -/
def glyphAddress (v : Byte) : Word := BitVec.ofNat 16 (v.toNat * 5)

/-- `V0` to `Vx`, in that order (R174). -/
def regsUpTo (x : Reg) (s : State) : List Byte :=
  (List.range (x.toNat + 1)).map fun k => readV (BitVec.ofNat 4 k) s

/-- How many registers Fx55 and Fx65 move, `x + 1` (R174, R175). -/
def regCount (x : Reg) : Nat := x.toNat + 1

/-- `I <- a + x + 1`, the end of Fx55 and Fx65 (R174, R175). -/
def advanceIndex (a : Word) (x : Reg) (s : State) : State := { s with I := BitVec.ofNat 16 (a.toNat + regCount x) }

end Sys2Proof.Machine
end

