-- ==== Sys2Proof/Machine/Flags.lean ====
section
/-! DEFINITION. The flag computations (10_state R22; 42_register_alu R141, R148 to R152; 40_display R104) and the order in which an instruction writes its result and its flag. -/

namespace Sys2Proof.Machine

/-- A flag as the byte VF holds. -/
def flagByte (c : Bool) : Byte := if c then 1 else 0

/-- The carry of 8xy4: the unwrapped sum exceeds 255 (R148). -/
def carryFlag (a b : Byte) : Byte := flagByte (decide (255 < a.toNat + b.toNat))

/-- The flag of a subtraction `a - b`: strictly greater (R149, R151). -/
def greaterFlag (a b : Byte) : Byte := flagByte (decide (b.toNat < a.toNat))

/-- The bit that 8xy6 shifts out, bit 0 (R150). -/
def lowBit (a : Byte) : Byte := a &&& 1

/-- The bit that 8xyE shifts out, bit 7 (R152). -/
def highBit (a : Byte) : Byte := a >>> 7

/-- The result to `Vx`, then the flag to `VF`: with `x = 0xF` the flag is what VF holds (R141). -/
def writeResultThenFlag (x : Reg) (result flag : Byte) (s : State) : State := writeV VF flag (writeV x result s)

/-- The end of 8xy6 and 8xyE. Under `flag_wins` the result, then the flag. Under `statement_order` the flag,
then the shift of the `Vx` that the flag may just have overwritten (R141, R150, R152). -/
def writeShift (x : Reg) (shift : Byte → Byte) (flag : Byte) (s : State) : State :=
  match s.cfg.vfOrder with
  | .flagWins => writeResultThenFlag x (shift (readV x s)) flag s
  | .statementOrder => writeV x (shift (readV x (writeV VF flag s))) (writeV VF flag s)

end Sys2Proof.Machine
end

