-- ==== Sys2Proof/Machine/ControlFlow.lean ====
section
/-! DEFINITION. Control transfer: return, jumps, call, and the four register skips (41_control_flow). -/

namespace Sys2Proof.Machine

/-- 00EE `RET` (R120). -/
def execRet (s : State) : Result :=
  match pop s with
  | none => raise .stackUnderflow .ret s
  | some (target, t) => .next (jumpTo target t)

/-- 1nnn `JP nnn` (R121). -/
def execJp (nnn : Imm12) (s : State) : Result := .next (jumpTo (zextImm nnn) s)

/-- 2nnn `CALL nnn` (R122). -/
def execCall (nnn : Imm12) (s : State) : Result :=
  match push (s.pc + 2) s with
  | none => raise .stackOverflow (.call nnn) s
  | some t => .next (jumpTo (zextImm nnn) t)

/-- 3xnn `SE Vx, nn` (R123). -/
def execSeImm (x : Reg) (nn : Byte) (s : State) : Result := .next (skipIf (readV x s == nn) s)

/-- 4xnn `SNE Vx, nn` (R124). -/
def execSneImm (x : Reg) (nn : Byte) (s : State) : Result := .next (skipIf (readV x s != nn) s)

/-- 5xy0 `SE Vx, Vy` (R125). -/
def execSeReg (x y : Reg) (s : State) : Result := .next (skipIf (readV x s == readV y s) s)

/-- 9xy0 `SNE Vx, Vy` (R126). -/
def execSneReg (x y : Reg) (s : State) : Result := .next (skipIf (readV x s != readV y s) s)

/-- Bnnn `JP V0, nnn` (R127): `V0`, whatever the digit `x` holds. -/
def execJpV0 (nnn : Imm12) (s : State) : Result := .next (jumpTo (indexedTarget (readV 0 s) nnn) s)

end Sys2Proof.Machine
end

