-- ==== Sys2Proof/Machine/Display.lean ====
section
/-! DEFINITION. The display instructions, 00E0 and Dxyn (40_display). -/

namespace Sys2Proof.Machine

/-- 00E0 `CLS` (R103). -/
def execCls (s : State) : Result := .next (advance (fbClear s))

/-- Dxyn `DRW Vx, Vy, n` (R104): the rows, then VF, then pc. -/
def execDrw (x y : Reg) (n : Count) (s : State) : Result :=
  (drawRows s.I.toNat (readV x s).toNat (readV y s).toNat 0 n.toNat false s).conclude (.drw x y n)
    fun any t => advance (writeV VF (flagByte any) t)

end Sys2Proof.Machine
end

