-- ==== Sys2Proof/Machine/IndexMemory.lean ====
section
/-! DEFINITION. The index register and memory instructions (43_index_memory). -/

namespace Sys2Proof.Machine

/-- Annn `LD I, nnn` (R170). -/
def execLdI (nnn : Imm12) (s : State) : Result := .next (advance { s with I := zextImm nnn })

/-- Fx1E `ADD I, Vx` (R171): AddressingFault on a sum that does not fit 16 bits. -/
def execAddI (x : Reg) (s : State) : Result :=
  let sum := s.I.toNat + (readV x s).toNat
  if 0xFFFF < sum then raiseAddressing sum (.addI x) s else .next (advance { s with I := BitVec.ofNat 16 sum })

/-- Fx29 `LD F, Vx` (R172). -/
def execLdF (x : Reg) (s : State) : Result := .next (advance { s with I := glyphAddress (readV x s) })

/-- Fx33 `LD B, Vx` (R173). -/
def execLdB (x : Reg) (s : State) : Result :=
  (storeBytes s.I.toNat (bcdDigits (readV x s)) s).conclude (.ldB x) fun _ t => advance t

/-- Fx55 `LD [I], Vx` (R174). -/
def execStore (x : Reg) (s : State) : Result :=
  (storeBytes s.I.toNat (regsUpTo x s) s).conclude (.store x) fun _ t => advance (advanceIndex s.I x t)

/-- Fx65 `LD Vx, [I]` (R175). -/
def execLoad (x : Reg) (s : State) : Result :=
  (loadRegs s.I.toNat 0 (regCount x) s).conclude (.load x) fun _ t => advance (advanceIndex s.I x t)

end Sys2Proof.Machine
end

