-- ==== Sys2Proof/Machine/RegisterAlu.lean ====
section
/-! DEFINITION. The register and ALU instructions (42_register_alu). -/

namespace Sys2Proof.Machine

/-- 6xnn `LD Vx, nn` (R142). -/
def execLdImm (x : Reg) (nn : Byte) (s : State) : Result := .next (advance (writeV x nn s))

/-- 7xnn `ADD Vx, nn` (R143): no flag. -/
def execAddImm (x : Reg) (nn : Byte) (s : State) : Result := .next (advance (writeV x (add8 (readV x s) nn) s))

/-- 8xy0 `LD Vx, Vy` (R144). -/
def execLdReg (x y : Reg) (s : State) : Result := .next (advance (writeV x (readV y s) s))

/-- 8xy1 `OR Vx, Vy` (R145): UnknownOpcode when OR_8XY1 is false. -/
def execOrReg (x y : Reg) (s : State) : Result :=
  if s.cfg.or8xy1 then .next (advance (writeV x (readV x s ||| readV y s) s))
  else raise .unknownOpcode (.orReg x y) s

/-- 8xy2 `AND Vx, Vy` (R146). -/
def execAndReg (x y : Reg) (s : State) : Result := .next (advance (writeV x (readV x s &&& readV y s) s))

/-- 8xy3 `XOR Vx, Vy` (R147). -/
def execXorReg (x y : Reg) (s : State) : Result := .next (advance (writeV x (readV x s ^^^ readV y s) s))

/-- 8xy4 `ADD Vx, Vy` (R148). -/
def execAddReg (x y : Reg) (s : State) : Result :=
  let a := readV x s
  let b := readV y s
  .next (advance (writeResultThenFlag x (add8 a b) (carryFlag a b) s))

/-- 8xy5 `SUB Vx, Vy` (R149). -/
def execSub (x y : Reg) (s : State) : Result :=
  let a := readV x s
  let b := readV y s
  .next (advance (writeResultThenFlag x (sub8 a b) (greaterFlag a b) s))

/-- 8xy6 `SHR Vx {, Vy}` (R150): `y` is ignored (30_encoding R74). -/
def execShr (x _y : Reg) (s : State) : Result := .next (advance (writeShift x shr1 (lowBit (readV x s)) s))

/-- 8xy7 `SUBN Vx, Vy` (R151). -/
def execSubn (x y : Reg) (s : State) : Result :=
  let a := readV x s
  let b := readV y s
  .next (advance (writeResultThenFlag x (sub8 b a) (greaterFlag b a) s))

/-- 8xyE `SHL Vx {, Vy}` (R152): `y` is ignored (30_encoding R74). -/
def execShl (x _y : Reg) (s : State) : Result := .next (advance (writeShift x shl1 (highBit (readV x s)) s))

/-- Cxnn `RND Vx, nn` (R153): one draw, masked. -/
def execRnd (x : Reg) (nn : Byte) (s : State) : Result :=
  let (r, t) := randomByte s
  .next (advance (writeV x (r &&& nn) t))

end Sys2Proof.Machine
end

