-- ==== Sys2Proof/Machine/TimersKeypad.lean ====
section
/-! DEFINITION. The keypad and timer instructions (44_timers_keypad). -/

namespace Sys2Proof.Machine

/-- Ex9E `SKP Vx` (R191). -/
def execSkp (x : Reg) (s : State) : Result :=
  match keyPressed (readV x s) s with
  | none => raiseKeypadUsage (readV x s) (.skp x) s
  | some p => .next (skipIf p s)

/-- ExA1 `SKNP Vx` (R192). -/
def execSknp (x : Reg) (s : State) : Result :=
  match keyPressed (readV x s) s with
  | none => raiseKeypadUsage (readV x s) (.sknp x) s
  | some p => .next (skipIf (!p) s)

/-- Fx07 `LD Vx, DT` (R193). -/
def execLdVxDt (x : Reg) (s : State) : Result := .next (advance (writeV x s.DT s))

/-- Fx0A `LD Vx, K` (R194): with no key pressed the STEP ends `Ok` with no write at all, and the next STEP
fetches this instruction again (70_reset R248). -/
def execLdVxK (x : Reg) (s : State) : Result :=
  match firstPressed s with
  | none => .next s
  | some k => .next (advance (writeV x (BitVec.ofNat 8 k) s))

/-- Fx15 `LD DT, Vx` (R195). -/
def execLdDtVx (x : Reg) (s : State) : Result := .next (advance { s with DT := readV x s })

/-- Fx18 `LD ST, Vx` (R196). -/
def execLdStVx (x : Reg) (s : State) : Result := .next (advance { s with ST := readV x s })

end Sys2Proof.Machine
end

