-- ==== Sys2Proof/Machine/Step.lean ====
section
/-! DEFINITION. One STEP: fetch, decode, execute (30_encoding R83), with the faults in the order of 60_exceptions R218. -/

namespace Sys2Proof.Machine

/-- `Step()` (30_encoding R83). A fetch fault has no word in its record (60_exceptions R210); a fetch fault and
UnknownOpcode leave the state as it was (R217). -/
def step (s : State) : Host.Outcome State Fault Refusal :=
  match fetch16 s with
  | .error addr => .fault (.addressing s.pc none addr s)
  | .ok w =>
    match decode s.cfg w with
    | .error _ => .fault (.unknownOpcode s.pc w s)
    | .ok i => exec i s

/-- The state with an instruction where the next step fetches it, and, where its row is enabled by a parameter
(8xy1 alone), with that parameter set (log 3, log 9). -/
def State.withFetchWord (s : State) (nbits w : Nat) : State :=
  { placeWord (tableWord nbits w) s with cfg := configFor (tableWord nbits w) s.cfg }

end Sys2Proof.Machine
end

