-- ==== Sys2Proof/Machine/HostOps.lean ====
section
/-! DEFINITION. The host's operations beside STEP (60_exceptions R224): construction, the timer tick, the key events and the read-outs. -/

namespace Sys2Proof.Machine

/-- What an operation of the host's returns when it is refused: the codes 1 and 5 of 60_exceptions R210, whose
records hold no `pc` and no word here, and no state, since such an operation changes nothing. -/
inductive HostFault where
  /-- AddressingFault of CONSTRUCT, the image too large (70_reset R244). The spec's own: safe. -/
  | addressing (addr : Nat)
  /-- KeypadUsageFault of KEY_DOWN and KEY_UP, a code of 16 or more (R226). The spec's own: safe. -/
  | keypadUsage (key : Nat)
deriving DecidableEq, Repr

/-- The numeric code of a fault of a host operation (60_exceptions R210): the same numbers as `Fault.code` gives
these kinds when a STEP raises them. -/
def HostFault.code : HostFault → Nat
  | .addressing _ => 1
  | .keypadUsage _ => 5

/-! ## CONSTRUCT (70_reset R240 to R244) -/

/-- MAX_IMAGE (00_scope R5). -/
def maxImage : Nat := 3584

/-- The 80 font bytes of a variant (70_reset R241): `source` has the bytes of glyph '3' for glyph '2'. -/
def fontOf : FontVariant → List Byte
  | .standard => font
  | .source => font.take 10 ++ [0xF0, 0x10, 0xF0, 0x10, 0xF0] ++ font.drop 15

/-- Bytes copied to an address and up. -/
def Memory.load (m : Memory) (a : Nat) : List Byte → Memory
  | [] => m
  | b :: bs => Memory.load (m.write a b) (a + 1) bs

/-- CONSTRUCT(image, seed) under a configuration (70_reset R240): the image is checked, then the font goes to 0,
the image to 0x200, and everything else to its value of R242. -/
def construct (cfg : Config) (image : List Byte) (seed : Nat) : Except HostFault State :=
  if maxImage < image.length then .error (.addressing 0x1000)
  else .ok { State.reset with
    mem := (Memory.load [] 0 (fontOf cfg.font)).load 0x200 image
    prng := { seed := seed, drawn := 0 }
    cfg := cfg }

/-! ## TICK (60_exceptions R222) -/

/-- Down by one, floored at 0. -/
def countDown (t : Byte) : Byte := if t = 0 then 0 else t - 1

/-- `Tick()` (R222). -/
def tick (s : State) : State := { s with DT := countDown s.DT, ST := countDown s.ST }

/-! ## Key events (60_exceptions R226) -/

/-- Set key `k` to a value, or refuse a code of 16 or more. -/
def setKey (k : Nat) (pressed : Bool) (s : State) : Except HostFault State :=
  if h : k < 16 then .ok { s with keys := s.keys.set k pressed h } else .error (.keypadUsage k)

/-- `key_down(k)` (R226). -/
def keyDown (k : Nat) (s : State) : Except HostFault State := setKey k true s

/-- `key_up(k)` (R226). -/
def keyUp (k : Nat) (s : State) : Except HostFault State := setKey k false s

/-! ## Read-outs (60_exceptions R224) -/

/-- FB_SNAPSHOT: one byte per pixel, row by row. -/
def fbSnapshot (s : State) : List Byte :=
  (List.range 2048).map fun j => if s.fb.pixel (Fin.ofNat 32 (j / 64)) (Fin.ofNat 64 j) then 1 else 0

/-- MEM_SNAPSHOT: the 4096 bytes in address order. -/
def memSnapshot (s : State) : List Byte := (List.range memSize).map s.mem.read

/-- SOUND_LEVEL: the sound timer. -/
def soundLevel (s : State) : Byte := s.ST

end Sys2Proof.Machine
end

