-- ==== Sys2Proof/Machine/Session.lean ====
section
/-! DEFINITION. A session: the host's operations on a constructed core, one at a time, in any order it chooses (60_exceptions R224, R225). -/

namespace Sys2Proof.Machine

/-- The operations of 60_exceptions R224 on a constructed core. A key code is a natural number, so that a code
out of range can be given (R226). -/
inductive HostOp where
  | step
  | tick
  | keyDown (k : Nat)
  | keyUp (k : Nat)
  | fbSnapshot
  | memSnapshot
  | soundLevel
deriving DecidableEq, Repr

/-- The results of 60_exceptions R224. -/
inductive Answer where
  /-- `Ok` of STEP, KEY_DOWN and KEY_UP, and the empty result of TICK. -/
  | ok
  /-- `Fault(record)` of STEP. -/
  | fault (f : Fault)
  /-- A STEP without a meaning; no step of this model answers so. -/
  | refused (r : Refusal)
  /-- The KeypadUsageFault of a key event. -/
  | hostFault (f : HostFault)
  /-- A snapshot. -/
  | bytes (bs : List Byte)
  /-- The sound level. -/
  | level (b : Byte)
deriving DecidableEq, Repr

/-- A STEP as the host sees it: its result, and the state the core goes on from, after a fault too (R216, R219). -/
def performStep (s : State) : Answer × State :=
  match step s with
  | .next t => (.ok, t)
  | .fault f => (.fault f, f.left)
  | .refused r => (.refused r, s)

/-- A key event as the host sees it: a refused one changes nothing (R226). -/
def performKey (r : Except HostFault State) (s : State) : Answer × State :=
  match r with
  | .ok t => (.ok, t)
  | .error f => (.hostFault f, s)

/-- One operation: its result and the state after it (R224). -/
def perform (op : HostOp) (s : State) : Answer × State :=
  match op with
  | .step => performStep s
  | .tick => (.ok, tick s)
  | .keyDown k => performKey (keyDown k s) s
  | .keyUp k => performKey (keyUp k s) s
  | .fbSnapshot => (.bytes (fbSnapshot s), s)
  | .memSnapshot => (.bytes (memSnapshot s), s)
  | .soundLevel => (.level (soundLevel s), s)

/-- A list of operations in the host's order: their results, and the state after the last (R225). -/
def session : List HostOp → State → List Answer × State
  | [], s => ([], s)
  | op :: ops, s =>
    let (a, t) := perform op s
    let (as, u) := session ops t
    (a :: as, u)

end Sys2Proof.Machine
end

