-- ==== Sys2Proof/Safety.lean ====
section
/-! DEFINITION. The terms claims are made in: the invariant of the core, the parts of its state that a frame speaks of, and what a safe run is. -/

namespace Sys2Proof.Machine

/-- What holds of every state a session reaches (10_state R24, R27): memory in its canonical form, the stack within
STACK_LIMIT and holding addresses of at most 0x1000, and `pc` at most 0x10FE. -/
structure Inv (s : State) : Prop where
  mem_wf : s.mem.wf = true
  stack_le : ∀ n, s.cfg.stackLimit = some n → s.stack.length ≤ n
  stack_addr : ∀ v ∈ s.stack, v.toNat ≤ 0x1000
  pc_le : s.pc.toNat ≤ 0x10FE

/-- The word is the instruction's encoding: it decodes to the instruction wherever the instruction is well formed
(30_encoding R73, R77). -/
def DecodesTo (w : Word) (i : Instr) : Prop := ∀ cfg : Config, i.wf cfg = true → decode cfg w = .ok i

/-- A part of the state that a frame speaks of: every piece of 10_state R20 but `pc`. -/
inductive Part where
  | reg (x : Reg)
  | index
  | stack
  | delay
  | sound
  | byte (a : Nat)
  | pixel (r : Fin 32) (c : Fin 64)
  | keypad
  | generator
  | config
deriving DecidableEq, Repr

/-- The part holds in `t` what it held in `s`. -/
def Part.same (s t : State) : Part → Prop
  | .reg x => readV x t = readV x s
  | .index => t.I = s.I
  | .stack => t.stack = s.stack
  | .delay => t.DT = s.DT
  | .sound => t.ST = s.ST
  | .byte a => t.mem.read a = s.mem.read a
  | .pixel r c => t.fb.pixel r c = s.fb.pixel r c
  | .keypad => t.keys = s.keys
  | .generator => t.prng = s.prng
  | .config => t.cfg = s.cfg

/-- The frame rule (00_scope R11): from `s` to `t` every part but the named ones keeps its value. `pc` may change. -/
def OnlyChanges (named : Part → Prop) (s t : State) : Prop := ∀ p, ¬ named p → p.same s t

/-- No named part: nothing but `pc` changes. -/
def nothing : Part → Prop := fun _ => False

/-- The bytes at `base`, …, `base + len - 1`. -/
def bytesAt (base len : Nat) : Part → Prop := fun p => ∃ k < len, p = .byte (base + k)

/-- The pixels that `len` sprite rows at column `cx` and row `cy` cover, both wrapping (40_display R100, R104). -/
def spriteBox (cx cy len : Nat) : Part → Prop :=
  fun p => ∃ k < len, ∃ b < 8, p = .pixel (Fin.ofNat 32 (cy + k)) (Fin.ofNat 64 (cx + b))

/-- Bit `b` of sprite row `k`, counted from the leftmost, of the sprite in memory at `base` (40_display R100). -/
def spriteBit (s : State) (base k b : Nat) : Bool := (s.mem.read (base + k)).getLsbD (7 - b)

/-- Does one of the `len` sprite rows have a 1 bit that lands on the pixel (40_display R100)? -/
def SpriteLights (s : State) (base cx cy len : Nat) (r : Fin 32) (c : Fin 64) : Prop :=
  ∃ k < len, ∃ b < 8, r = Fin.ofNat 32 (cy + k) ∧ c = Fin.ofNat 64 (cx + b) ∧ spriteBit s base k b = true

/-- Does a 1 bit of one of the `len` sprite rows land on a pixel that is on (40_display R101)? -/
def SpriteErases (s : State) (base cx cy len : Nat) : Prop :=
  ∃ k < len, ∃ b < 8, spriteBit s base k b = true ∧
    s.fb.pixel (Fin.ofNat 32 (cy + k)) (Fin.ofNat 64 (cx + b)) = true

/-- The first address of 4096 or more that accesses from `base` up reach (60_exceptions R211). -/
def firstBad (base : Nat) : Nat := max base memSize

/-- How many accesses from `base` up succeed before the first address of 4096 or more. -/
def goodCount (base : Nat) : Nat := memSize - base

/-- A safe run: `k` STEPs from `s`, none of which faults or is refused. -/
def SafeRun (k : Nat) (s : State) : Prop := ∃ t, Sys2Proof.core.run k s = .next t

end Sys2Proof.Machine
end

