-- ==== Sys2Proof/Certificates/Slice0/Obligations.lean ====
section
/-! DEFINITION. The statements for the provers, by the numbered rules of spec/. A statement about an instruction says, for every state that meets its hypotheses, that `exec` completes (or stops, where the rule says so), what it leaves, and its frame (`OnlyChanges`). -/

open Sys2Proof Sys2Proof.Machine

/-! ## Encoding -/

/-- 30_encoding R70, R73: the bytes of a well-formed instruction decode to it, under every configuration and
whatever bytes follow. -/
def Obligations.DecodeOfEncodedBytes : Prop :=
  ∀ (cfg : Config) (i : Instr) (rest : List Byte), i.wf cfg = true →
    decodeBytes cfg (encodeBytes i ++ rest) = .ok (i, rest)

/-- 30_encoding R73, R74: a word that decodes is the encoding of what it decodes to, so that decoding drops no bit. -/
def Obligations.EncodeOfDecodedWord : Prop :=
  ∀ (cfg : Config) (w : Word) (i : Instr), decode cfg w = .ok i → i.wf cfg = true ∧ encode i = w

/-- 30_encoding R73: "No two rows match the same word", of the 34 rows. -/
def Obligations.NoTwoRowsMatchOneWord : Prop :=
  rows.length = 34 ∧
    ∀ (m n : Fin rows.length) (w : Word), rows[m].matches w = true → rows[n].matches w = true → m = n

/-- 30_encoding R75, R76, R77: which words are unrecognised, family by family, with 8xy1 among them exactly when
OR_8XY1 is false. -/
def Obligations.UnrecognisedWordsByFamily : Prop :=
  ∀ (cfg : Config) (w : Word),
    (∃ e, decode cfg w = .error e) ↔
      ((w.toNat / 4096 = 0 ∧ w.toNat ≠ 0x00E0 ∧ w.toNat ≠ 0x00EE) ∨
        (w.toNat / 4096 = 5 ∧ w.toNat % 16 ≠ 0) ∨
        (w.toNat / 4096 = 8 ∧ (w.toNat % 16 ∈ [8, 9, 0xA, 0xB, 0xC, 0xD, 0xF] ∨ (w.toNat % 16 = 1 ∧ cfg.or8xy1 = false))) ∨
        (w.toNat / 4096 = 9 ∧ w.toNat % 16 ≠ 0) ∨
        (w.toNat / 4096 = 0xE ∧ w.toNat % 256 ∉ [0x9E, 0xA1]) ∨
        (w.toNat / 4096 = 0xF ∧ w.toNat % 256 ∉ [0x07, 0x0A, 0x15, 0x18, 0x1E, 0x29, 0x33, 0x55, 0x65]))

/-- 30_encoding R73: words written out from the map's patterns decode to the instructions they stand for. -/
def Obligations.SampleWordsDecode : Prop :=
  ∀ cfg : Config,
    decode cfg 0x00EE = .ok .ret ∧
    decode cfg 0x5120 = .ok (.seReg 0x1 0x2) ∧
    decode cfg 0x810E = .ok (.shl 0x1 0x0) ∧
    decode cfg 0xB300 = .ok (.jpV0 0x300) ∧
    decode cfg 0xD125 = .ok (.drw 0x1 0x2 0x5) ∧
    decode cfg 0xE5A1 = .ok (.sknp 0x5) ∧
    decode cfg 0xFA33 = .ok (.ldB 0xA)

/-! ## The instruction cycle -/

/-- 30_encoding R83: a STEP whose two bytes at `pc`, big-endian, decode to `i` is the meaning of `i`. -/
def Obligations.StepRunsDecodedInstruction : Prop :=
  ∀ (s : State) (hi lo : Byte) (i : Instr),
    memRead s.pc.toNat s = .ok hi → memRead (s.pc.toNat + 1) s = .ok lo →
      decode s.cfg (wordOfBytes hi lo) = .ok i → step s = exec i s

/-- 20_memory R56: the fetch reads the byte at `pc` into bits 15:8 and the byte after it into bits 7:0; at 0xFFF it
faults with address 0x1000, and from 0x1000 up with address `pc`. -/
def Obligations.FetchIsBigEndianAndBounded : Prop :=
  ∀ s : State,
    (s.pc.toNat < 0xFFF → ∃ w, fetch16 s = .ok w ∧
      w.toNat = (s.mem.read s.pc.toNat).toNat * 256 + (s.mem.read (s.pc.toNat + 1)).toNat) ∧
    (s.pc.toNat = 0xFFF → step s = .fault (.addressing s.pc none 0x1000 s)) ∧
    (0x1000 ≤ s.pc.toNat → step s = .fault (.addressing s.pc none s.pc.toNat s))

/-- 60_exceptions R212: a fetched word that no row of the decode map matches raises UnknownOpcode with `pc` and the
word, and changes nothing. -/
def Obligations.UnmatchedWordRaisesUnknownOpcode : Prop :=
  ∀ (s : State) (w : Word), fetch16 s = .ok w → (∀ r ∈ rows, r.matches w = false) →
    step s = .fault (.unknownOpcode s.pc w s)

/-- 30_encoding R77: the fetched word 8xy1 is the OR when OR_8XY1 is true, and raises UnknownOpcode with `pc` and the
word, nothing changed, when it is false. -/
def Obligations.OrIsRecognisedOnlyWhenEnabled : Prop :=
  ∀ (s : State) (x y : Reg), fetch16 s = .ok (0x8#4 ++ x ++ y ++ 0x1#4) →
    (s.cfg.or8xy1 = true → step s = exec (.orReg x y) s) ∧
    (s.cfg.or8xy1 = false → step s = .fault (.unknownOpcode s.pc (0x8#4 ++ x ++ y ++ 0x1#4) s))

/-- 60_exceptions R210, R216: a STEP returns `Ok` or one of the five faults; it is never without a meaning. -/
def Obligations.StepIsNeverRefused : Prop :=
  ∀ (s : State) (r : Refusal), step s ≠ .refused r

/-- 60_exceptions R217: after a fault `pc` is the faulting instruction's, and the record says so; the index register,
VF, the stack, the timers, the keypad, the generator and the configuration are as they were. -/
def Obligations.FaultLeavesControlState : Prop :=
  ∀ (s : State) (f : Fault), step s = .fault f →
    f.pc = s.pc ∧ f.left.pc = s.pc ∧ f.left.I = s.I ∧ readV VF f.left = readV VF s ∧ f.left.stack = s.stack ∧
      f.left.DT = s.DT ∧ f.left.ST = s.ST ∧ f.left.keys = s.keys ∧ f.left.prng = s.prng ∧ f.left.cfg = s.cfg

/-- 60_exceptions R219, with the premise it needs (log 10): a fault whose partial writes leave the instruction's own
two bytes alone is raised again, with the same record, by the next STEP, whatever the host did to the keypad and the
timers in between. -/
def Obligations.FaultRepeatsWhateverTheHostDoes : Prop :=
  ∀ (s : State) (f : Fault) (keys : Vector Bool 16) (dt st : Byte),
    step s = .fault f → fetch16 f.left = fetch16 s →
      ∃ l, step { f.left with keys := keys, DT := dt, ST := st } = .fault (f.withLeft l)

/-- 70_reset R250, 41_control_flow R121: a jump to itself leaves the state unchanged, for any number of STEPs. -/
def Obligations.SelfJumpIsAFixedPoint : Prop :=
  ∀ (k : Nat) (s : State) (nnn : Imm12), fetch16 s = .ok (encode (.jp nnn)) → nnn.toNat = s.pc.toNat →
    Sys2Proof.core.run k s = .next s

/-- 70_reset R248, 44_timers_keypad R194: with no key pressed, a STEP at Fx0A changes nothing and answers `Ok`, for
any number of STEPs. -/
def Obligations.KeyWaitStallsWithoutFault : Prop :=
  ∀ (k : Nat) (s : State) (x : Reg), fetch16 s = .ok (encode (.ldVxK x)) → (∀ j, keyAt s.keys j = false) →
    Sys2Proof.core.run k s = .next s

/-! ## The invariant -/

/-- 70_reset R242: the reset state meets the invariant. -/
def Obligations.ResetMeetsInvariant : Prop := Inv State.reset

/-- 10_state R24, R27: every STEP keeps the invariant, and so does the state that a fault leaves. -/
def Obligations.StepKeepsInvariant : Prop :=
  ∀ s : State, Inv s → (∀ t, step s = .next t → Inv t) ∧ (∀ f, step s = .fault f → Inv f.left)

/-- 60_exceptions R224, R225: every session of host operations, in any order, keeps the invariant. -/
def Obligations.SessionKeepsInvariant : Prop :=
  ∀ (ops : List HostOp) (s : State), Inv s → Inv (session ops s).2

/-- 70_reset R240 to R242: a core constructed under a well-formed configuration meets the invariant. -/
def Obligations.ConstructionMeetsInvariant : Prop :=
  ∀ (cfg : Config) (image : List Byte) (seed : Nat) (s : State),
    cfg.wf = true → construct cfg image seed = .ok s → Inv s

/-! ## Display -/

/-- 40_display R103, 00E0: every pixel goes off, and nothing else changes but `pc`. -/
def Obligations.ClsClearsTheScreen : Prop :=
  DecodesTo 0x00E0 .cls ∧ ∀ s : State, ∃ t, exec .cls s = .next t ∧ t.pc = s.pc + 2 ∧ (∀ r c, t.fb.pixel r c = false) ∧
    OnlyChanges (fun p => ∃ r c, p = .pixel r c) s t

/-- 40_display R104, Dxyn with the whole sprite inside memory, or with no row, which reads no memory: each pixel is XORed with the sprite bits that land on
it, both axes wrapping, from the coordinates the registers held before; VF says whether a 1 bit met an on pixel; the
frame is VF and the box the sprite covers. -/
def Obligations.DrwDrawsTheSprite : Prop :=
  ∀ (s : State) (x y : Reg) (n : Count), n = 0 ∨ s.I.toNat + n.toNat ≤ 0x1000 →
    ∃ t, exec (.drw x y n) s = .next t ∧ t.pc = s.pc + 2 ∧
      (∀ r c, t.fb.pixel r c = true ↔
        (s.fb.pixel r c = true ↔ ¬ SpriteLights s s.I.toNat (readV x s).toNat (readV y s).toNat n.toNat r c)) ∧
      (SpriteErases s s.I.toNat (readV x s).toNat (readV y s).toNat n.toNat → readV VF t = 1) ∧
      (¬ SpriteErases s s.I.toNat (readV x s).toNat (readV y s).toNat n.toNat → readV VF t = 0) ∧
      OnlyChanges (fun p => p = .reg VF ∨ spriteBox (readV x s).toNat (readV y s).toNat n.toNat p) s t

/-- 40_display R104, 60_exceptions R217, Dxyn with a sprite that runs past memory: AddressingFault at the first bad
address, the rows before it drawn, VF and `pc` not written. -/
def Obligations.DrwFaultKeepsTheRowsDrawn : Prop :=
  ∀ (s : State) (x y : Reg) (n : Count), 0x1000 < s.I.toNat + n.toNat → n ≠ 0 →
    ∃ l, exec (.drw x y n) s = .fault (.addressing s.pc (some (encode (.drw x y n))) (firstBad s.I.toNat) l) ∧
      l.pc = s.pc ∧
      (∀ r c, l.fb.pixel r c = true ↔
        (s.fb.pixel r c = true ↔
          ¬ SpriteLights s s.I.toNat (readV x s).toNat (readV y s).toNat (goodCount s.I.toNat) r c)) ∧
      OnlyChanges (spriteBox (readV x s).toNat (readV y s).toNat (goodCount s.I.toNat)) s l

/-- 40_display R105: drawing the same sprite twice at the same position restores every pixel. By R100 and R101 the
second draw reports an erasure exactly when a 1 bit met an off pixel in the first; R105's derived "at least one 1 bit"
leaves that out (log 13). -/
def Obligations.DrawingTwiceRestoresTheScreen : Prop :=
  ∀ (s t : State) (x y : Reg) (n : Count), exec (.drw x y n) s = .next t →
    readV x t = readV x s → readV y t = readV y s →
      ∃ u, exec (.drw x y n) t = .next u ∧ u.fb = s.fb ∧
        (readV VF u = 1 ↔ ∃ k < n.toNat, ∃ b < 8, spriteBit s s.I.toNat k b = true ∧
          s.fb.pixel (Fin.ofNat 32 ((readV y s).toNat + k)) (Fin.ofNat 64 ((readV x s).toNat + b)) = false)

/-! ## Control transfer -/

/-- 41_control_flow R120, 00EE: the newest entry, as it stands, goes to `pc` and leaves the stack; on the empty stack
StackUnderflow, and nothing changes. -/
def Obligations.RetPopsTheReturnAddress : Prop :=
  DecodesTo 0x00EE .ret ∧ ∀ s : State,
    (∀ (rest : List Word) (v : Word), s.stack = rest ++ [v] →
      ∃ t, exec .ret s = .next t ∧ t.pc = v ∧ t.stack = rest ∧ OnlyChanges (· = .stack) s t) ∧
    (s.stack = [] → exec .ret s = .fault (.stackUnderflow s.pc 0x00EE s))

/-- 41_control_flow R121, 1nnn: `pc` is `nnn`. -/
def Obligations.JpJumps : Prop :=
  ∀ (s : State) (nnn : Imm12), DecodesTo (0x1#4 ++ nnn) (.jp nnn) ∧
    ∃ t, exec (.jp nnn) s = .next t ∧ t.pc.toNat = nnn.toNat ∧ OnlyChanges nothing s t

/-- 41_control_flow R122, 2nnn: `pc + 2` is pushed and `pc` is `nnn`; with exactly STACK_LIMIT entries StackOverflow,
and nothing changes. -/
def Obligations.CallPushesTheReturnAddress : Prop :=
  ∀ (s : State) (nnn : Imm12), DecodesTo (0x2#4 ++ nnn) (.call nnn) ∧
    (s.cfg.stackLimit ≠ some s.stack.length →
      ∃ t, exec (.call nnn) s = .next t ∧ t.pc.toNat = nnn.toNat ∧ t.stack = s.stack ++ [s.pc + 2] ∧
        OnlyChanges (· = .stack) s t) ∧
    (s.cfg.stackLimit = some s.stack.length →
      exec (.call nnn) s = .fault (.stackOverflow s.pc (encode (.call nnn)) s))

/-- 41_control_flow R123, R124, R128, 3xnn and 4xnn: `pc + 4` when the register equals (differs from) the immediate,
else `pc + 2`; nothing else changes. -/
def Obligations.ImmediateSkips : Prop :=
  ∀ (s : State) (x : Reg) (nn : Byte),
    DecodesTo (0x3#4 ++ x ++ nn) (.seImm x nn) ∧
    (∃ t, exec (.seImm x nn) s = .next t ∧ t.pc = (if readV x s = nn then s.pc + 4 else s.pc + 2) ∧
      OnlyChanges nothing s t) ∧
    DecodesTo (0x4#4 ++ x ++ nn) (.sneImm x nn) ∧
    (∃ t, exec (.sneImm x nn) s = .next t ∧ t.pc = (if readV x s = nn then s.pc + 2 else s.pc + 4) ∧
      OnlyChanges nothing s t)

/-- 41_control_flow R125, R126, R128, 5xy0 and 9xy0: `pc + 4` when the registers are equal (differ), else `pc + 2`;
nothing else changes. -/
def Obligations.RegisterSkips : Prop :=
  ∀ (s : State) (x y : Reg),
    DecodesTo (0x5#4 ++ x ++ y ++ 0x0#4) (.seReg x y) ∧
    (∃ t, exec (.seReg x y) s = .next t ∧ t.pc = (if readV x s = readV y s then s.pc + 4 else s.pc + 2) ∧
      OnlyChanges nothing s t) ∧
    DecodesTo (0x9#4 ++ x ++ y ++ 0x0#4) (.sneReg x y) ∧
    (∃ t, exec (.sneReg x y) s = .next t ∧ t.pc = (if readV x s = readV y s then s.pc + 2 else s.pc + 4) ∧
      OnlyChanges nothing s t)

/-- 41_control_flow R127, Bnnn: `pc` is `V0 + nnn`, not masked. -/
def Obligations.JpV0JumpsUnmasked : Prop :=
  ∀ (s : State) (nnn : Imm12), DecodesTo (0xB#4 ++ nnn) (.jpV0 nnn) ∧
    ∃ t, exec (.jpV0 nnn) s = .next t ∧ t.pc.toNat = (readV 0 s).toNat + nnn.toNat ∧ OnlyChanges nothing s t

/-! ## Registers and ALU -/

/-- 42_register_alu R142, R143, 6xnn and 7xnn: the immediate, and the wrapping sum without a flag. -/
def Obligations.ImmediateLoadAndAdd : Prop :=
  ∀ (s : State) (x : Reg) (nn : Byte),
    DecodesTo (0x6#4 ++ x ++ nn) (.ldImm x nn) ∧
    (∃ t, exec (.ldImm x nn) s = .next t ∧ t.pc = s.pc + 2 ∧ readV x t = nn ∧ OnlyChanges (· = .reg x) s t) ∧
    DecodesTo (0x7#4 ++ x ++ nn) (.addImm x nn) ∧
    (∃ t, exec (.addImm x nn) s = .next t ∧ t.pc = s.pc + 2 ∧
      (readV x t).toNat = ((readV x s).toNat + nn.toNat) % 256 ∧ OnlyChanges (· = .reg x) s t)

/-- 42_register_alu R144, R146, R147, 8xy0, 8xy2 and 8xy3: the copy and the bitwise AND and XOR, bit by bit, without
a flag. -/
def Obligations.CopyAndLogic : Prop :=
  ∀ (s : State) (x y : Reg),
    DecodesTo (0x8#4 ++ x ++ y ++ 0x0#4) (.ldReg x y) ∧
    (∃ t, exec (.ldReg x y) s = .next t ∧ t.pc = s.pc + 2 ∧ readV x t = readV y s ∧ OnlyChanges (· = .reg x) s t) ∧
    DecodesTo (0x8#4 ++ x ++ y ++ 0x2#4) (.andReg x y) ∧
    (∃ t, exec (.andReg x y) s = .next t ∧ t.pc = s.pc + 2 ∧
      (∀ b, (readV x t).getLsbD b = ((readV x s).getLsbD b && (readV y s).getLsbD b)) ∧
      OnlyChanges (· = .reg x) s t) ∧
    DecodesTo (0x8#4 ++ x ++ y ++ 0x3#4) (.xorReg x y) ∧
    (∃ t, exec (.xorReg x y) s = .next t ∧ t.pc = s.pc + 2 ∧
      (∀ b, (readV x t).getLsbD b = ((readV x s).getLsbD b != (readV y s).getLsbD b)) ∧
      OnlyChanges (· = .reg x) s t)

/-- 42_register_alu R145, 8xy1: the bitwise OR when OR_8XY1, and UnknownOpcode with nothing changed when not. -/
def Obligations.OrWhenEnabled : Prop :=
  ∀ (s : State) (x y : Reg),
    DecodesTo (0x8#4 ++ x ++ y ++ 0x1#4) (.orReg x y) ∧
    (s.cfg.or8xy1 = true → ∃ t, exec (.orReg x y) s = .next t ∧ t.pc = s.pc + 2 ∧
      (∀ b, (readV x t).getLsbD b = ((readV x s).getLsbD b || (readV y s).getLsbD b)) ∧
      OnlyChanges (· = .reg x) s t) ∧
    (s.cfg.or8xy1 = false → exec (.orReg x y) s = .fault (.unknownOpcode s.pc (encode (.orReg x y)) s))

/-- 42_register_alu R148, 8xy4: the wrapping sum, and VF the carry, which is what VF holds when it is the
destination. -/
def Obligations.AddWithCarry : Prop :=
  ∀ (s : State) (x y : Reg),
    DecodesTo (0x8#4 ++ x ++ y ++ 0x4#4) (.addReg x y) ∧
    ∃ t, exec (.addReg x y) s = .next t ∧ t.pc = s.pc + 2 ∧
      (x ≠ VF → (readV x t).toNat = ((readV x s).toNat + (readV y s).toNat) % 256) ∧
      readV VF t = (if 255 < (readV x s).toNat + (readV y s).toNat then 1 else 0) ∧
      OnlyChanges (fun p => p = .reg x ∨ p = .reg VF) s t

/-- 42_register_alu R149, 8xy5: the wrapping difference `Vx - Vy`, and VF 1 exactly when `Vx > Vy` before. -/
def Obligations.SubtractWithFlag : Prop :=
  ∀ (s : State) (x y : Reg),
    DecodesTo (0x8#4 ++ x ++ y ++ 0x5#4) (.sub x y) ∧
    ∃ t, exec (.sub x y) s = .next t ∧ t.pc = s.pc + 2 ∧
      (x ≠ VF → (readV x t).toNat = ((readV x s).toNat + 256 - (readV y s).toNat) % 256) ∧
      readV VF t = (if (readV y s).toNat < (readV x s).toNat then 1 else 0) ∧
      OnlyChanges (fun p => p = .reg x ∨ p = .reg VF) s t

/-- 42_register_alu R151, 8xy7: the wrapping difference `Vy - Vx`, and VF 1 exactly when `Vy > Vx` before. -/
def Obligations.SubtractReversedWithFlag : Prop :=
  ∀ (s : State) (x y : Reg),
    DecodesTo (0x8#4 ++ x ++ y ++ 0x7#4) (.subn x y) ∧
    ∃ t, exec (.subn x y) s = .next t ∧ t.pc = s.pc + 2 ∧
      (x ≠ VF → (readV x t).toNat = ((readV y s).toNat + 256 - (readV x s).toNat) % 256) ∧
      readV VF t = (if (readV x s).toNat < (readV y s).toNat then 1 else 0) ∧
      OnlyChanges (fun p => p = .reg x ∨ p = .reg VF) s t

/-- 42_register_alu R150, R141, 8xy6: half of `Vx`, and VF its old bit 0, under either value of VF_X_EQ_F; when VF is
the destination, the flag under `flag_wins` and 0 under `statement_order`. `y` plays no part. -/
def Obligations.ShiftRightWithFlag : Prop :=
  ∀ (s : State) (x y : Reg),
    DecodesTo (0x8#4 ++ x ++ y ++ 0x6#4) (.shr x y) ∧
    ∃ t, exec (.shr x y) s = .next t ∧ t.pc = s.pc + 2 ∧
      (x ≠ VF → (readV x t).toNat = (readV x s).toNat / 2 ∧ (readV VF t).toNat = (readV x s).toNat % 2) ∧
      (x = VF → s.cfg.vfOrder = .flagWins → (readV VF t).toNat = (readV VF s).toNat % 2) ∧
      (x = VF → s.cfg.vfOrder = .statementOrder → readV VF t = 0) ∧
      OnlyChanges (fun p => p = .reg x ∨ p = .reg VF) s t

/-- 42_register_alu R152, R141, 8xyE: twice `Vx`, wrapping, and VF its old bit 7, under either value of VF_X_EQ_F;
when VF is the destination, the flag under `flag_wins` and twice the flag under `statement_order`. `y` plays no
part. -/
def Obligations.ShiftLeftWithFlag : Prop :=
  ∀ (s : State) (x y : Reg),
    DecodesTo (0x8#4 ++ x ++ y ++ 0xE#4) (.shl x y) ∧
    ∃ t, exec (.shl x y) s = .next t ∧ t.pc = s.pc + 2 ∧
      (x ≠ VF → (readV x t).toNat = (readV x s).toNat * 2 % 256 ∧ (readV VF t).toNat = (readV x s).toNat / 128) ∧
      (x = VF → s.cfg.vfOrder = .flagWins → (readV VF t).toNat = (readV VF s).toNat / 128) ∧
      (x = VF → s.cfg.vfOrder = .statementOrder → (readV VF t).toNat = (readV VF s).toNat / 128 * 2) ∧
      OnlyChanges (fun p => p = .reg x ∨ p = .reg VF) s t

/-- 42_register_alu R153, 10_state R32, Cxnn: the draw masked by the immediate, and exactly one value taken. The draw
is a free value, whatever `Config.randomByte` is, and the count of values taken is the model's own field (log 2). -/
def Obligations.RandomByteIsMasked : Prop :=
  ∀ (s : State) (x : Reg) (nn : Byte),
    DecodesTo (0xC#4 ++ x ++ nn) (.rnd x nn) ∧
    ∃ t, exec (.rnd x nn) s = .next t ∧ t.pc = s.pc + 2 ∧
      readV x t = Config.randomByte s.prng.seed s.prng.drawn &&& nn ∧
      (∀ b, nn.getLsbD b = false → (readV x t).getLsbD b = false) ∧
      t.prng.seed = s.prng.seed ∧ t.prng.drawn = s.prng.drawn + 1 ∧
      OnlyChanges (fun p => p = .reg x ∨ p = .generator) s t

/-! ## Index register and memory -/

/-- 43_index_memory R170, R172, Annn and Fx29: `I` is `nnn`, and `I` is five times the unmasked register. -/
def Obligations.IndexLoads : Prop :=
  ∀ s : State,
    (∀ nnn : Imm12, DecodesTo (0xA#4 ++ nnn) (.ldI nnn) ∧ ∃ t, exec (.ldI nnn) s = .next t ∧ t.pc = s.pc + 2 ∧ t.I.toNat = nnn.toNat ∧
      OnlyChanges (· = .index) s t) ∧
    (∀ x : Reg, DecodesTo (0xF#4 ++ x ++ 0x29#8) (.ldF x) ∧ ∃ t, exec (.ldF x) s = .next t ∧ t.pc = s.pc + 2 ∧ t.I.toNat = (readV x s).toNat * 5 ∧
      OnlyChanges (· = .index) s t)

/-- 43_index_memory R171, Fx1E: the unmasked sum, with no flag; a sum above 0xFFFF raises AddressingFault with the
sum, and nothing changes. -/
def Obligations.IndexAddIsUnmasked : Prop :=
  ∀ (s : State) (x : Reg),
    DecodesTo (0xF#4 ++ x ++ 0x1E#8) (.addI x) ∧
    (s.I.toNat + (readV x s).toNat ≤ 0xFFFF →
      ∃ t, exec (.addI x) s = .next t ∧ t.pc = s.pc + 2 ∧ t.I.toNat = s.I.toNat + (readV x s).toNat ∧
        OnlyChanges (· = .index) s t) ∧
    (0xFFFF < s.I.toNat + (readV x s).toNat →
      exec (.addI x) s =
        .fault (.addressing s.pc (some (encode (.addI x))) (s.I.toNat + (readV x s).toNat) s))

/-- 43_index_memory R173, Fx33 inside memory: hundreds, tens and units at `I`, `I + 1`, `I + 2`, and no other byte. -/
def Obligations.BcdStoresThreeDigits : Prop :=
  ∀ (s : State) (x : Reg), s.mem.wf = true → s.I.toNat + 3 ≤ 0x1000 →
    ∃ t, exec (.ldB x) s = .next t ∧ t.pc = s.pc + 2 ∧
      (t.mem.read s.I.toNat).toNat = (readV x s).toNat / 100 ∧
      (t.mem.read (s.I.toNat + 1)).toNat = (readV x s).toNat / 10 % 10 ∧
      (t.mem.read (s.I.toNat + 2)).toNat = (readV x s).toNat % 10 ∧
      OnlyChanges (bytesAt s.I.toNat 3) s t

/-- 43_index_memory R173, 60_exceptions R217, Fx33 past memory: AddressingFault at the first bad address, the digits
before it stored, and no other byte. -/
def Obligations.BcdFaultKeepsTheDigitsStored : Prop :=
  ∀ (s : State) (x : Reg), s.mem.wf = true → 0x1000 < s.I.toNat + 3 →
    ∃ l, exec (.ldB x) s = .fault (.addressing s.pc (some (encode (.ldB x))) (firstBad s.I.toNat) l) ∧
      l.pc = s.pc ∧
      (∀ k < goodCount s.I.toNat, (l.mem.read (s.I.toNat + k)).toNat = (readV x s).toNat / 10 ^ (2 - k) % 10) ∧
      OnlyChanges (bytesAt s.I.toNat (goodCount s.I.toNat)) s l

/-- 43_index_memory R174, Fx55 inside memory: `V0` to `Vx` at `I` and up, `I` advanced past them, and no other byte. -/
def Obligations.StoreDumpsTheRegisters : Prop :=
  ∀ (s : State) (x : Reg), s.mem.wf = true → s.I.toNat + (x.toNat + 1) ≤ 0x1000 →
    ∃ t, exec (.store x) s = .next t ∧ t.pc = s.pc + 2 ∧
      (∀ r : Reg, r.toNat ≤ x.toNat → t.mem.read (s.I.toNat + r.toNat) = readV r s) ∧
      t.I.toNat = s.I.toNat + x.toNat + 1 ∧
      OnlyChanges (fun p => p = .index ∨ bytesAt s.I.toNat (x.toNat + 1) p) s t

/-- 43_index_memory R174, 60_exceptions R217, Fx55 past memory: AddressingFault at the first bad address, the bytes
before it stored, `I` and `pc` as they were. -/
def Obligations.StoreFaultKeepsTheBytesStored : Prop :=
  ∀ (s : State) (x : Reg), s.mem.wf = true → 0x1000 < s.I.toNat + (x.toNat + 1) →
    ∃ l, exec (.store x) s = .fault (.addressing s.pc (some (encode (.store x))) (firstBad s.I.toNat) l) ∧
      l.pc = s.pc ∧
      (∀ r : Reg, r.toNat < goodCount s.I.toNat → l.mem.read (s.I.toNat + r.toNat) = readV r s) ∧
      OnlyChanges (bytesAt s.I.toNat (goodCount s.I.toNat)) s l

/-- 43_index_memory R175, Fx65 inside memory: `V0` to `Vx` from `I` and up, `I` advanced past them, and no other
register. -/
def Obligations.LoadFillsTheRegisters : Prop :=
  ∀ (s : State) (x : Reg), s.I.toNat + (x.toNat + 1) ≤ 0x1000 →
    ∃ t, exec (.load x) s = .next t ∧ t.pc = s.pc + 2 ∧
      (∀ r : Reg, r.toNat ≤ x.toNat → readV r t = s.mem.read (s.I.toNat + r.toNat)) ∧
      t.I.toNat = s.I.toNat + x.toNat + 1 ∧
      OnlyChanges (fun p => p = .index ∨ ∃ r : Reg, r.toNat ≤ x.toNat ∧ p = .reg r) s t

/-- 43_index_memory R175, 60_exceptions R217, Fx65 past memory: AddressingFault at the first bad address, the
registers before it loaded, `I` and `pc` as they were. -/
def Obligations.LoadFaultKeepsTheRegistersLoaded : Prop :=
  ∀ (s : State) (x : Reg), 0x1000 < s.I.toNat + (x.toNat + 1) →
    ∃ l, exec (.load x) s = .fault (.addressing s.pc (some (encode (.load x))) (firstBad s.I.toNat) l) ∧
      l.pc = s.pc ∧
      (∀ r : Reg, r.toNat < goodCount s.I.toNat → readV r l = s.mem.read (s.I.toNat + r.toNat)) ∧
      OnlyChanges (fun p => ∃ r : Reg, r.toNat < goodCount s.I.toNat ∧ p = .reg r) s l

/-- 43_index_memory R175 (corner cases), 90_conflicts C2: Fx55, then `I` set back, then Fx65 with the same `x`, on a
state whose registers were overwritten in between, gives `V0` to `Vx` back. -/
def Obligations.StoreThenLoadRoundTrips : Prop :=
  ∀ (s t : State) (x : Reg) (regs : Vector Byte 16), s.mem.wf = true → exec (.store x) s = .next t →
    ∃ u, exec (.load x) { t with I := s.I, V := regs } = .next u ∧
      (∀ r : Reg, r.toNat ≤ x.toNat → readV r u = readV r s) ∧ u.I = t.I ∧ (∀ a, u.mem.read a = t.mem.read a)

/-- 20_memory R62: the bytes Fx55 stores are what the next fetch at their address reads, big-endian. -/
def Obligations.StoresAreVisibleToFetch : Prop :=
  ∀ (s t : State) (x r q : Reg), s.mem.wf = true → exec (.store x) s = .next t →
    q.toNat = r.toNat + 1 → q.toNat ≤ x.toNat →
      fetch16 (jumpTo (s.I + r.setWidth 16) t) = .ok (wordOfBytes (readV r s) (readV q s))

/-- 30_encoding R80, R83: a word of the opcode table placed at `pc` is the instruction the next STEP runs. The
placement, `State.withFetchWord`, is the model's own, standing for a load from outside (log 9); that the table's words
are read with every row enabled, and that placing 8xy1 sets OR_8XY1, is the model's choice (log 3). -/
def Obligations.PlacedWordRunsNext : Prop :=
  ∀ (s : State) (w : Nat) (i : Instr), s.mem.wf = true → s.pc.toNat + 1 < 0x1000 → decodeTableWord 16 w = some i →
    step (s.withFetchWord 16 w) = exec i (s.withFetchWord 16 w)

/-! ## Keypad and timers -/

/-- 44_timers_keypad R190, R191, R192, Ex9E and ExA1: the skip when the key is pressed (not pressed), nothing else
changed; a code of 16 or more raises KeypadUsageFault with the code, and nothing changes. -/
def Obligations.KeySkips : Prop :=
  ∀ (s : State) (x : Reg),
    DecodesTo (0xE#4 ++ x ++ 0x9E#8) (.skp x) ∧ DecodesTo (0xE#4 ++ x ++ 0xA1#8) (.sknp x) ∧
    ((readV x s).toNat < 16 →
      (∃ t, exec (.skp x) s = .next t ∧
        t.pc = (if keyAt s.keys (readV x s).toNat = true then s.pc + 4 else s.pc + 2) ∧ OnlyChanges nothing s t) ∧
      (∃ t, exec (.sknp x) s = .next t ∧
        t.pc = (if keyAt s.keys (readV x s).toNat = true then s.pc + 2 else s.pc + 4) ∧ OnlyChanges nothing s t)) ∧
    (16 ≤ (readV x s).toNat →
      exec (.skp x) s = .fault (.keypadUsage s.pc (encode (.skp x)) (readV x s) s) ∧
      exec (.sknp x) s = .fault (.keypadUsage s.pc (encode (.sknp x)) (readV x s) s))

/-- 44_timers_keypad R194, Fx0A: the lowest pressed key goes to `Vx`; with no key pressed the STEP ends `Ok` and the
state is unchanged, `pc` too. -/
def Obligations.KeyWaitTakesTheLowestKey : Prop :=
  ∀ (s : State) (x : Reg),
    DecodesTo (0xF#4 ++ x ++ 0x0A#8) (.ldVxK x) ∧
    (∀ k < 16, keyAt s.keys k = true → (∀ j < k, keyAt s.keys j = false) →
      ∃ t, exec (.ldVxK x) s = .next t ∧ t.pc = s.pc + 2 ∧ (readV x t).toNat = k ∧ OnlyChanges (· = .reg x) s t) ∧
    ((∀ k < 16, keyAt s.keys k = false) → exec (.ldVxK x) s = .next s)

/-- 44_timers_keypad R193, R195, R196, Fx07, Fx15 and Fx18: the moves to and from the timers. -/
def Obligations.TimerMoves : Prop :=
  ∀ (s : State) (x : Reg),
    DecodesTo (0xF#4 ++ x ++ 0x07#8) (.ldVxDt x) ∧
    (∃ t, exec (.ldVxDt x) s = .next t ∧ t.pc = s.pc + 2 ∧ readV x t = s.DT ∧ OnlyChanges (· = .reg x) s t) ∧
    DecodesTo (0xF#4 ++ x ++ 0x15#8) (.ldDtVx x) ∧
    (∃ t, exec (.ldDtVx x) s = .next t ∧ t.pc = s.pc + 2 ∧ t.DT = readV x s ∧ OnlyChanges (· = .delay) s t) ∧
    DecodesTo (0xF#4 ++ x ++ 0x18#8) (.ldStVx x) ∧
    (∃ t, exec (.ldStVx x) s = .next t ∧ t.pc = s.pc + 2 ∧ t.ST = readV x s ∧ OnlyChanges (· = .sound) s t)

/-! ## Rules over all instructions -/

/-- 10_state R25, R27: which instructions can change `I`, and which the stack. -/
def Obligations.WritersOfIndexAndStack : Prop :=
  ∀ (i : Instr) (s t : State), exec i s = .next t →
    (t.I ≠ s.I → (∃ nnn, i = .ldI nnn) ∨ (∃ x, i = .addI x) ∨ (∃ x, i = .ldF x) ∨ (∃ x, i = .store x) ∨
      (∃ x, i = .load x)) ∧
    (s.stack.length < t.stack.length → ∃ nnn, i = .call nnn) ∧
    (t.stack.length < s.stack.length → i = .ret) ∧
    (t.stack.length = s.stack.length → t.stack = s.stack)

/-- 10_state R28 to R33, 20_memory R58: which instructions can change a timer, the framebuffer, the generator and
memory; none changes the keypad or the configuration. -/
def Obligations.WritersOfDevicesAndMemory : Prop :=
  ∀ (i : Instr) (s t : State), exec i s = .next t →
    (t.DT ≠ s.DT → ∃ x, i = .ldDtVx x) ∧
    (t.ST ≠ s.ST → ∃ x, i = .ldStVx x) ∧
    (t.fb ≠ s.fb → i = .cls ∨ ∃ x y n, i = .drw x y n) ∧
    (t.prng ≠ s.prng → ∃ x nn, i = .rnd x nn) ∧
    (t.mem ≠ s.mem → (∃ x, i = .ldB x) ∨ ∃ x, i = .store x) ∧
    t.keys = s.keys ∧ t.cfg = s.cfg

/-- 10_state R22: an instruction that is not flag-setting changes VF only when VF is its destination, or when Fx65
loads all sixteen registers. -/
def Obligations.WritersOfVF : Prop :=
  ∀ (i : Instr) (s t : State), exec i s = .next t → readV VF t ≠ readV VF s →
    (∃ x y, i = .addReg x y ∨ i = .sub x y ∨ i = .shr x y ∨ i = .subn x y ∨ i = .shl x y) ∨
    (∃ x y n, i = .drw x y n) ∨
    (∃ nn, i = .ldImm VF nn ∨ i = .addImm VF nn ∨ i = .rnd VF nn) ∨
    (∃ y, i = .ldReg VF y ∨ i = .orReg VF y ∨ i = .andReg VF y ∨ i = .xorReg VF y) ∨
    i = .ldVxDt VF ∨ i = .ldVxK VF ∨ i = .load VF

/-- 10_state R29: no instruction reads the sound timer. Two states that differ in it alone step alike: both complete,
into states that differ in it at most, with equal results when the instruction wrote it, or both fault with one
record. -/
def Obligations.SoundTimerIsNeverRead : Prop :=
  ∀ (s : State) (a : Byte),
    (∀ t, step s = .next t → ∃ t', step { s with ST := a } = .next t' ∧ t' = { t with ST := t'.ST } ∧
      (t'.ST = t.ST ∨ (t.ST = s.ST ∧ t'.ST = a))) ∧
    (∀ f, step s = .fault f → step { s with ST := a } = .fault (f.withLeft { f.left with ST := a }))

/-! ## Host operations and reset -/

/-- 70_reset R240 to R242: what construction leaves, for an image that fits. That the generator's state is the seed and
that the configuration is carried in the state are the model's choices (log 1, log 2). -/
def Obligations.ConstructionLeavesResetValues : Prop :=
  ∀ (cfg : Config) (image : List Byte) (seed : Nat), image.length ≤ 3584 →
    ∃ s, construct cfg image seed = .ok s ∧ s.pc = 0x200 ∧ (∀ x, readV x s = 0) ∧ s.I = 0 ∧ s.stack = [] ∧
      s.DT = 0 ∧ s.ST = 0 ∧ (∀ r c, s.fb.pixel r c = false) ∧ (∀ k, keyAt s.keys k = false) ∧
      s.prng.seed = seed ∧ s.cfg = cfg ∧
      (∀ a, a < 80 → (fontOf cfg.font)[a]? = some (s.mem.read a)) ∧
      (∀ a, 80 ≤ a → a < 0x200 → s.mem.read a = 0) ∧
      (∀ a, 0x200 ≤ a → a < 0x1000 → s.mem.read a = image.getD (a - 0x200) 0)

/-- 70_reset R244: an image of 0 to 3584 bytes is accepted and copied to 0x200, and a longer one refused with
AddressingFault(0x1000). On the empty image the first STEP raises UnknownOpcode(0x200, 0x0000): this clause is R244's
own inference, "[derived: from rule R242 and `30_encoding.md` rule R76]", and not a sentence of the source. -/
def Obligations.OversizedImageIsRefused : Prop :=
  ∀ (cfg : Config) (image : List Byte) (seed : Nat),
    (3584 < image.length → construct cfg image seed = .error (.addressing 0x1000)) ∧
    (image.length ≤ 3584 → ∃ s, construct cfg image seed = .ok s ∧
      ∀ a, 0x200 ≤ a → a < 0x1000 → s.mem.read a = image.getD (a - 0x200) 0) ∧
    (∀ s, construct cfg [] seed = .ok s → step s = .fault (.unknownOpcode 0x200 0x0000 s))

/-- 60_exceptions R222: TICK counts both timers down by one, floored at 0, and changes nothing else. -/
def Obligations.TickCountsDown : Prop :=
  ∀ s : State, (tick s).DT.toNat = s.DT.toNat - 1 ∧ (tick s).ST.toNat = s.ST.toNat - 1 ∧
    (tick s).pc = s.pc ∧ OnlyChanges (fun p => p = .delay ∨ p = .sound) s (tick s)

/-- 60_exceptions R226: a key event changes its key alone; a code of 16 or more is refused. -/
def Obligations.KeyEventsChangeOneKey : Prop :=
  ∀ (s : State) (k : Nat),
    (k < 16 → ∃ d u, keyDown k s = .ok d ∧ keyUp k s = .ok u ∧
      (∀ j, keyAt d.keys j = (if j = k then true else keyAt s.keys j)) ∧
      (∀ j, keyAt u.keys j = (if j = k then false else keyAt s.keys j)) ∧
      d = { s with keys := d.keys } ∧ u = { s with keys := u.keys }) ∧
    (16 ≤ k → keyDown k s = .error (.keypadUsage k) ∧ keyUp k s = .error (.keypadUsage k) ∧
      perform (.keyDown k) s = (.hostFault (.keypadUsage k), s) ∧
      perform (.keyUp k) s = (.hostFault (.keypadUsage k), s))

/-- 60_exceptions R224: the snapshots and the sound level read the state and change nothing. -/
def Obligations.SnapshotsReadTheState : Prop :=
  ∀ s : State,
    (∃ bs, perform .fbSnapshot s = (.bytes bs, s) ∧ bs.length = 2048 ∧
      ∀ (y : Fin 32) (x : Fin 64), bs[y.val * 64 + x.val]? = some (if s.fb.pixel y x = true then 1 else 0)) ∧
    (∃ bs, perform .memSnapshot s = (.bytes bs, s) ∧ bs.length = 4096 ∧
      ∀ a < 4096, bs[a]? = some (s.mem.read a)) ∧
    perform .soundLevel s = (.level s.ST, s)
end

