-- ==== Sys2Proof/Laws/Encoding.lean ====
section
/-! SUPPORT. The decode map of 30_encoding R73: its rows are separated, so a row that matches a word is the row that decodes it; the fields of a word built from fields. -/

namespace Sys2Proof

/-- Two rows differ in a bit that both fix. -/
def Row.apart (a b : Row) : Bool := a.value &&& (a.mask &&& b.mask) != b.value &&& (a.mask &&& b.mask)

theorem rows_apart : rows.Pairwise (fun a b => a.apart b = true) := by decide

/-- Rows that differ in a bit both fix match no common word. -/
theorem Row.not_both_match {a b : Row} (h : a.apart b = true) {w : Word} (ha : a.matches w = true) :
    b.matches w = false := by
  simp only [Row.apart, bne_iff_ne, ne_eq, Row.matches, beq_iff_eq] at h ha ⊢
  rw [beq_eq_false_iff_ne]
  intro hb
  apply h
  rw [← ha, ← hb]
  refine BitVec.eq_of_getLsbD_eq fun i hi => ?_
  simp only [BitVec.getLsbD_and]
  grind

theorem find_of_apart {l : List Row} (hl : l.Pairwise (fun a b => a.apart b = true)) {r : Row} (hr : r ∈ l) {w : Word}
    (h : r.matches w = true) : l.find? (·.matches w) = some r := by
  induction l with
  | nil => simp at hr
  | cons a l ih =>
    rw [List.pairwise_cons] at hl
    rcases List.mem_cons.1 hr with rfl | hr
    · simp [h]
    · by_cases ha : a.matches w = true
      · have := Row.not_both_match (hl.1 r hr) ha
        simp [this] at h
      · simp [ha, ih hl.2 hr]

/-- The row that matches a word decodes it, whatever its place in the map (R73). -/
theorem decodeRow_of_matches {n : Nat} (hn : n < rows.length) {w : Word} (h : rows[n].matches w = true) :
    decodeRow w = some (rows[n].build w) := by
  simp [decodeRow, find_of_apart rows_apart (List.getElem_mem hn) h]

/-- What a decoded word matches. -/
theorem decodeRow_some {w : Word} {i : Instr} (h : decodeRow w = some i) :
    ∃ r ∈ rows, r.matches w = true ∧ i = r.build w := by
  simp only [decodeRow, Option.map_eq_some_iff] at h
  obtain ⟨r, hr, rfl⟩ := h
  exact ⟨r, List.mem_of_find?_eq_some hr, by simpa using List.find?_some hr, rfl⟩

/-- A word no row matches does not decode. -/
theorem decodeRow_none {w : Word} : decodeRow w = none ↔ ∀ r ∈ rows, r.matches w = false := by
  simp [decodeRow]

/-! ### Fields of built words -/

theorem decode_ok {cfg : Config} {w : Word} {i : Instr} :
    decode cfg w = .ok i ↔ decodeRow w = some i ∧ i.wf cfg = true := by
  unfold decode
  cases decodeRow w with
  | none => simp
  | some j =>
    by_cases h : j.wf cfg = true
    · simp only [h, if_true, Except.ok.injEq, Option.some.injEq]
      exact ⟨fun e => ⟨e, e ▸ h⟩, fun e => e.1⟩
    · simp only [h, Bool.false_eq_true, if_false, reduceCtorEq, Option.some.injEq, false_iff, not_and]
      exact fun e => e ▸ h

/-- Bit by bit, a word of four nibbles. -/
theorem getLsbD_regs (o x y n : BitVec 4) (i : Nat) : BitVec.getLsbD (o ++ x ++ y ++ n : Word) i =
    if i < 4 then n.getLsbD i else if i < 8 then y.getLsbD (i - 4) else if i < 12 then x.getLsbD (i - 8)
    else o.getLsbD (i - 12) := by
  simp only [BitVec.getLsbD_append]
  grind

/-- Bit by bit, a word of two nibbles and a byte. -/
theorem getLsbD_imm (o x : BitVec 4) (nn : BitVec 8) (i : Nat) : BitVec.getLsbD (o ++ x ++ nn : Word) i =
    if i < 8 then nn.getLsbD i else if i < 12 then x.getLsbD (i - 8) else o.getLsbD (i - 12) := by
  simp only [BitVec.getLsbD_append]
  grind

/-- Bit by bit, a word of a nibble and an address. -/
theorem getLsbD_addr (o : BitVec 4) (nnn : BitVec 12) (i : Nat) : BitVec.getLsbD (o ++ nnn : Word) i =
    if i < 12 then nnn.getLsbD i else o.getLsbD (i - 12) := by
  simp only [BitVec.getLsbD_append]

theorem fieldX_regs (o x y n : BitVec 4) : fieldX (o ++ x ++ y ++ n) = x := by
  refine BitVec.eq_of_getLsbD_eq fun i hi => ?_
  simp only [fieldX, BitVec.getLsbD_extractLsb', getLsbD_regs]
  grind

theorem fieldY_regs (o x y n : BitVec 4) : fieldY (o ++ x ++ y ++ n) = y := by
  refine BitVec.eq_of_getLsbD_eq fun i hi => ?_
  simp only [fieldY, BitVec.getLsbD_extractLsb', getLsbD_regs]
  grind

theorem fieldN_regs (o x y n : BitVec 4) : fieldN (o ++ x ++ y ++ n) = n := by
  refine BitVec.eq_of_getLsbD_eq fun i hi => ?_
  simp only [fieldN, BitVec.getLsbD_extractLsb', getLsbD_regs]
  grind

theorem fieldX_imm (o x : BitVec 4) (nn : BitVec 8) : fieldX (o ++ x ++ nn) = x := by
  refine BitVec.eq_of_getLsbD_eq fun i hi => ?_
  simp only [fieldX, BitVec.getLsbD_extractLsb', getLsbD_imm]
  grind

theorem fieldNn_imm (o x : BitVec 4) (nn : BitVec 8) : fieldNn (o ++ x ++ nn) = nn := by
  refine BitVec.eq_of_getLsbD_eq fun i hi => ?_
  simp only [fieldNn, BitVec.getLsbD_extractLsb', getLsbD_imm]
  grind

theorem fieldNnn_addr (o : BitVec 4) (nnn : BitVec 12) : fieldNnn (o ++ nnn) = nnn := by
  refine BitVec.eq_of_getLsbD_eq fun i hi => ?_
  simp only [fieldNnn, BitVec.getLsbD_extractLsb', getLsbD_addr]
  grind

/-! ### Masks of built words -/

theorem mask_addr (o : BitVec 4) (nnn : BitVec 12) : (o ++ nnn : Word) &&& 0xF000 = o ++ 0#12 := by
  refine BitVec.eq_of_getLsbD_eq fun i hi => ?_
  simp only [BitVec.getLsbD_and, BitVec.getLsbD_append]
  interval_cases i <;> simp

theorem mask_imm (o x : BitVec 4) (nn : BitVec 8) : (o ++ x ++ nn : Word) &&& 0xF000 = o ++ 0#12 := by
  refine BitVec.eq_of_getLsbD_eq fun i hi => ?_
  simp only [BitVec.getLsbD_and, BitVec.getLsbD_append]
  interval_cases i <;> simp

theorem mask_sub (o x : BitVec 4) (nn : BitVec 8) : (o ++ x ++ nn : Word) &&& 0xF0FF = o ++ 0#4 ++ nn := by
  refine BitVec.eq_of_getLsbD_eq fun i hi => ?_
  simp only [BitVec.getLsbD_and, BitVec.getLsbD_append]
  interval_cases i <;> simp

theorem mask_regs (o x y n : BitVec 4) : (o ++ x ++ y ++ n : Word) &&& 0xF00F = o ++ 0#8 ++ n := by
  refine BitVec.eq_of_getLsbD_eq fun i hi => ?_
  simp only [BitVec.getLsbD_and, BitVec.getLsbD_append]
  interval_cases i <;> simp

theorem mask_regs_count (o x y n : BitVec 4) : (o ++ x ++ y ++ n : Word) &&& 0xF000 = o ++ 0#12 := by
  refine BitVec.eq_of_getLsbD_eq fun i hi => ?_
  simp only [BitVec.getLsbD_and, BitVec.getLsbD_append]
  interval_cases i <;> simp

/-! ### A word cut into fields -/

theorem word_regs (w : Word) : w.extractLsb' 12 4 ++ fieldX w ++ fieldY w ++ fieldN w = w := by
  refine BitVec.eq_of_getLsbD_eq fun i hi => ?_
  simp only [getLsbD_regs, fieldX, fieldY, fieldN, BitVec.getLsbD_extractLsb']
  grind

theorem word_imm (w : Word) : w.extractLsb' 12 4 ++ fieldX w ++ fieldNn w = w := by
  refine BitVec.eq_of_getLsbD_eq fun i hi => ?_
  simp only [getLsbD_imm, fieldX, fieldNn, BitVec.getLsbD_extractLsb']
  grind

theorem word_addr (w : Word) : w.extractLsb' 12 4 ++ fieldNnn w = w := by
  refine BitVec.eq_of_getLsbD_eq fun i hi => ?_
  simp only [getLsbD_addr, fieldNnn, BitVec.getLsbD_extractLsb']
  grind

/-- Where a mask is all ones, the word is what the masked word is. -/
theorem extract_of_mask {w m v : Word} {a n : Nat} (h : w &&& m = v) (hm : m.extractLsb' a n = BitVec.allOnes n) :
    w.extractLsb' a n = v.extractLsb' a n := by
  rw [← h, BitVec.extractLsb'_and, hm, BitVec.and_allOnes]

/-! ### The bytes of a word -/

/-- A word is its two stored bytes, high byte first (20_memory R56). -/
theorem wordOfBytes_bytes (w : Word) : wordOfBytes (highByte w) (lowByte w) = w := by
  refine BitVec.eq_of_getLsbD_eq fun i hi => ?_
  simp only [wordOfBytes, highByte, lowByte, BitVec.getLsbD_append, BitVec.getLsbD_extractLsb']
  grind

end Sys2Proof
end

