-- ==== Sys2Proof/Laws/State.lean ====
section
/-! SUPPORT. One lemma per field per update of the state, so that no proof unfolds a record update, and what a register reads as after each update. -/

namespace Sys2Proof.Machine

/-! ### `writeV` -/

@[simp] theorem writeV_V (x : Reg) (b : Byte) (s : State) : (writeV x b s).V = s.V.set x.toNat b x.isLt := rfl
@[simp] theorem writeV_pc (x : Reg) (b : Byte) (s : State) : (writeV x b s).pc = s.pc := rfl
@[simp] theorem writeV_I (x : Reg) (b : Byte) (s : State) : (writeV x b s).I = s.I := rfl
@[simp] theorem writeV_stack (x : Reg) (b : Byte) (s : State) : (writeV x b s).stack = s.stack := rfl
@[simp] theorem writeV_DT (x : Reg) (b : Byte) (s : State) : (writeV x b s).DT = s.DT := rfl
@[simp] theorem writeV_ST (x : Reg) (b : Byte) (s : State) : (writeV x b s).ST = s.ST := rfl
@[simp] theorem writeV_mem (x : Reg) (b : Byte) (s : State) : (writeV x b s).mem = s.mem := rfl
@[simp] theorem writeV_fb (x : Reg) (b : Byte) (s : State) : (writeV x b s).fb = s.fb := rfl
@[simp] theorem writeV_keys (x : Reg) (b : Byte) (s : State) : (writeV x b s).keys = s.keys := rfl
@[simp] theorem writeV_prng (x : Reg) (b : Byte) (s : State) : (writeV x b s).prng = s.prng := rfl
@[simp] theorem writeV_cfg (x : Reg) (b : Byte) (s : State) : (writeV x b s).cfg = s.cfg := rfl

/-! ### `advance` -/

@[simp] theorem advance_V (s : State) : (advance s).V = s.V := rfl
@[simp] theorem advance_pc (s : State) : (advance s).pc = s.pc + 2 := rfl
@[simp] theorem advance_I (s : State) : (advance s).I = s.I := rfl
@[simp] theorem advance_stack (s : State) : (advance s).stack = s.stack := rfl
@[simp] theorem advance_DT (s : State) : (advance s).DT = s.DT := rfl
@[simp] theorem advance_ST (s : State) : (advance s).ST = s.ST := rfl
@[simp] theorem advance_mem (s : State) : (advance s).mem = s.mem := rfl
@[simp] theorem advance_fb (s : State) : (advance s).fb = s.fb := rfl
@[simp] theorem advance_keys (s : State) : (advance s).keys = s.keys := rfl
@[simp] theorem advance_prng (s : State) : (advance s).prng = s.prng := rfl
@[simp] theorem advance_cfg (s : State) : (advance s).cfg = s.cfg := rfl
@[simp] theorem readV_advance (r : Reg) (s : State) : readV r (advance s) = readV r s := rfl

/-! ### `skipIf` -/

@[simp] theorem skipIf_V (c : Bool) (s : State) : (skipIf c s).V = s.V := rfl
@[simp] theorem skipIf_pc (c : Bool) (s : State) : (skipIf c s).pc = if c then s.pc + 4 else s.pc + 2 := rfl
@[simp] theorem skipIf_I (c : Bool) (s : State) : (skipIf c s).I = s.I := rfl
@[simp] theorem skipIf_stack (c : Bool) (s : State) : (skipIf c s).stack = s.stack := rfl
@[simp] theorem skipIf_DT (c : Bool) (s : State) : (skipIf c s).DT = s.DT := rfl
@[simp] theorem skipIf_ST (c : Bool) (s : State) : (skipIf c s).ST = s.ST := rfl
@[simp] theorem skipIf_mem (c : Bool) (s : State) : (skipIf c s).mem = s.mem := rfl
@[simp] theorem skipIf_fb (c : Bool) (s : State) : (skipIf c s).fb = s.fb := rfl
@[simp] theorem skipIf_keys (c : Bool) (s : State) : (skipIf c s).keys = s.keys := rfl
@[simp] theorem skipIf_prng (c : Bool) (s : State) : (skipIf c s).prng = s.prng := rfl
@[simp] theorem skipIf_cfg (c : Bool) (s : State) : (skipIf c s).cfg = s.cfg := rfl
@[simp] theorem readV_skipIf (r : Reg) (c : Bool) (s : State) : readV r (skipIf c s) = readV r s := rfl

/-! ### `jumpTo` -/

@[simp] theorem jumpTo_V (target : Word) (s : State) : (jumpTo target s).V = s.V := rfl
@[simp] theorem jumpTo_pc (target : Word) (s : State) : (jumpTo target s).pc = target := rfl
@[simp] theorem jumpTo_I (target : Word) (s : State) : (jumpTo target s).I = s.I := rfl
@[simp] theorem jumpTo_stack (target : Word) (s : State) : (jumpTo target s).stack = s.stack := rfl
@[simp] theorem jumpTo_DT (target : Word) (s : State) : (jumpTo target s).DT = s.DT := rfl
@[simp] theorem jumpTo_ST (target : Word) (s : State) : (jumpTo target s).ST = s.ST := rfl
@[simp] theorem jumpTo_mem (target : Word) (s : State) : (jumpTo target s).mem = s.mem := rfl
@[simp] theorem jumpTo_fb (target : Word) (s : State) : (jumpTo target s).fb = s.fb := rfl
@[simp] theorem jumpTo_keys (target : Word) (s : State) : (jumpTo target s).keys = s.keys := rfl
@[simp] theorem jumpTo_prng (target : Word) (s : State) : (jumpTo target s).prng = s.prng := rfl
@[simp] theorem jumpTo_cfg (target : Word) (s : State) : (jumpTo target s).cfg = s.cfg := rfl
@[simp] theorem readV_jumpTo (r : Reg) (target : Word) (s : State) : readV r (jumpTo target s) = readV r s := rfl

/-! ### `fbClear` -/

@[simp] theorem fbClear_V (s : State) : (fbClear s).V = s.V := rfl
@[simp] theorem fbClear_pc (s : State) : (fbClear s).pc = s.pc := rfl
@[simp] theorem fbClear_I (s : State) : (fbClear s).I = s.I := rfl
@[simp] theorem fbClear_stack (s : State) : (fbClear s).stack = s.stack := rfl
@[simp] theorem fbClear_DT (s : State) : (fbClear s).DT = s.DT := rfl
@[simp] theorem fbClear_ST (s : State) : (fbClear s).ST = s.ST := rfl
@[simp] theorem fbClear_mem (s : State) : (fbClear s).mem = s.mem := rfl
@[simp] theorem fbClear_fb (s : State) : (fbClear s).fb = Framebuffer.blank := rfl
@[simp] theorem fbClear_keys (s : State) : (fbClear s).keys = s.keys := rfl
@[simp] theorem fbClear_prng (s : State) : (fbClear s).prng = s.prng := rfl
@[simp] theorem fbClear_cfg (s : State) : (fbClear s).cfg = s.cfg := rfl
@[simp] theorem readV_fbClear (r : Reg) (s : State) : readV r (fbClear s) = readV r s := rfl

/-! ### `advanceIndex` -/

@[simp] theorem advanceIndex_V (a : Word) (x : Reg) (s : State) : (advanceIndex a x s).V = s.V := rfl
@[simp] theorem advanceIndex_pc (a : Word) (x : Reg) (s : State) : (advanceIndex a x s).pc = s.pc := rfl
@[simp] theorem advanceIndex_I (a : Word) (x : Reg) (s : State) : (advanceIndex a x s).I = BitVec.ofNat 16 (a.toNat + regCount x) := rfl
@[simp] theorem advanceIndex_stack (a : Word) (x : Reg) (s : State) : (advanceIndex a x s).stack = s.stack := rfl
@[simp] theorem advanceIndex_DT (a : Word) (x : Reg) (s : State) : (advanceIndex a x s).DT = s.DT := rfl
@[simp] theorem advanceIndex_ST (a : Word) (x : Reg) (s : State) : (advanceIndex a x s).ST = s.ST := rfl
@[simp] theorem advanceIndex_mem (a : Word) (x : Reg) (s : State) : (advanceIndex a x s).mem = s.mem := rfl
@[simp] theorem advanceIndex_fb (a : Word) (x : Reg) (s : State) : (advanceIndex a x s).fb = s.fb := rfl
@[simp] theorem advanceIndex_keys (a : Word) (x : Reg) (s : State) : (advanceIndex a x s).keys = s.keys := rfl
@[simp] theorem advanceIndex_prng (a : Word) (x : Reg) (s : State) : (advanceIndex a x s).prng = s.prng := rfl
@[simp] theorem advanceIndex_cfg (a : Word) (x : Reg) (s : State) : (advanceIndex a x s).cfg = s.cfg := rfl
@[simp] theorem readV_advanceIndex (r : Reg) (a : Word) (x : Reg) (s : State) : readV r (advanceIndex a x s) = readV r s := rfl

/-! ### `tick` -/

@[simp] theorem tick_V (s : State) : (tick s).V = s.V := rfl
@[simp] theorem tick_pc (s : State) : (tick s).pc = s.pc := rfl
@[simp] theorem tick_I (s : State) : (tick s).I = s.I := rfl
@[simp] theorem tick_stack (s : State) : (tick s).stack = s.stack := rfl
@[simp] theorem tick_DT (s : State) : (tick s).DT = countDown s.DT := rfl
@[simp] theorem tick_ST (s : State) : (tick s).ST = countDown s.ST := rfl
@[simp] theorem tick_mem (s : State) : (tick s).mem = s.mem := rfl
@[simp] theorem tick_fb (s : State) : (tick s).fb = s.fb := rfl
@[simp] theorem tick_keys (s : State) : (tick s).keys = s.keys := rfl
@[simp] theorem tick_prng (s : State) : (tick s).prng = s.prng := rfl
@[simp] theorem tick_cfg (s : State) : (tick s).cfg = s.cfg := rfl
@[simp] theorem readV_tick (r : Reg) (s : State) : readV r (tick s) = readV r s := rfl

/-! ### Records updated in one field -/

@[simp] theorem readV_with_pc (r : Reg) (s : State) (a : Word) : readV r { s with pc := a } = readV r s := rfl
@[simp] theorem readV_with_I (r : Reg) (s : State) (a : Word) : readV r { s with I := a } = readV r s := rfl
@[simp] theorem readV_with_stack (r : Reg) (s : State) (a : List Word) : readV r { s with stack := a } = readV r s := rfl
@[simp] theorem readV_with_DT (r : Reg) (s : State) (a : Byte) : readV r { s with DT := a } = readV r s := rfl
@[simp] theorem readV_with_ST (r : Reg) (s : State) (a : Byte) : readV r { s with ST := a } = readV r s := rfl
@[simp] theorem readV_with_mem (r : Reg) (s : State) (a : Memory) : readV r { s with mem := a } = readV r s := rfl
@[simp] theorem readV_with_fb (r : Reg) (s : State) (a : Framebuffer) : readV r { s with fb := a } = readV r s := rfl
@[simp] theorem readV_with_keys (r : Reg) (s : State) (a : Vector Bool 16) : readV r { s with keys := a } = readV r s := rfl
@[simp] theorem readV_with_prng (r : Reg) (s : State) (a : Prng) : readV r { s with prng := a } = readV r s := rfl
@[simp] theorem readV_with_cfg (r : Reg) (s : State) (a : Config) : readV r { s with cfg := a } = readV r s := rfl

/-! ### Registers (10_state R21) -/

theorem readV_writeV (r x : Reg) (b : Byte) (s : State) : readV r (writeV x b s) = if r = x then b else readV r s := by
  simp only [readV, writeV, Vector.getElem_set, BitVec.toNat_inj, eq_comm]

@[simp] theorem readV_writeV_same (x : Reg) (b : Byte) (s : State) : readV x (writeV x b s) = b := by
  simp [readV_writeV]

theorem readV_writeV_ne {r x : Reg} (h : r ≠ x) (b : Byte) (s : State) : readV r (writeV x b s) = readV r s := by
  simp [readV_writeV, h]

end Sys2Proof.Machine
end

