-- ==== Sys2Proof/Laws/Memory.lean ====
section
/-! SUPPORT. Memory: a read after a write, the canonical form kept, and what the byte accesses and the runs of accesses can do (20_memory R51, R52, R56; 60_exceptions R217). -/

namespace Sys2Proof.Machine

/-! ### The list -/

theorem wfFrom_mono {lo lo' : Nat} (h : lo' ≤ lo) (m : Memory) (hm : m.wfFrom lo = true) : m.wfFrom lo' = true := by
  cases m with
  | nil => rfl
  | cons p m => simp_all [Memory.wfFrom]; omega

/-- Below its first address a canonical memory lists nothing. -/
theorem read_below {lo a : Nat} (m : Memory) (hm : m.wfFrom lo = true) (h : a < lo) : m.read a = unlisted a := by
  cases m with
  | nil => rfl
  | cons p m =>
    have : lo ≤ p.1 := by simp_all [Memory.wfFrom]
    simp [Memory.read, show a ≠ p.1 by omega, show a < p.1 by omega]

theorem read_cons {a : Nat} (b : Byte) (m : Memory) (hm : m.wfFrom (a + 1) = true) (a' : Nat) :
    (Memory.cons a b m).read a' = if a' = a then b else m.read a' := by
  by_cases hb : b = unlisted a
  · by_cases ha : a' = a
    · simp [Memory.cons, hb, ha, read_below m hm]
    · simp [Memory.cons, hb, ha]
  · by_cases ha : a' = a
    · simp [Memory.cons, hb, ha, Memory.read]
    · by_cases hlt : a' < a
      · simp [Memory.cons, hb, ha, hlt, Memory.read, read_below m hm (show a' < a + 1 by omega)]
      · simp [Memory.cons, hb, ha, hlt, Memory.read]

theorem cons_wfFrom {lo a : Nat} (b : Byte) (m : Memory) (hlo : lo ≤ a) (ha : a < memSize)
    (hm : m.wfFrom (a + 1) = true) : (Memory.cons a b m).wfFrom lo = true := by
  by_cases hb : b = unlisted a
  · simpa [Memory.cons, hb] using wfFrom_mono (by omega) m hm
  · simp [Memory.cons, hb, Memory.wfFrom, hlo, ha, hm]

theorem read_write_from (lo a : Nat) (b : Byte) (m : Memory) (hm : m.wfFrom lo = true) (a' : Nat) :
    (m.write a b).read a' = if a' = a then b else m.read a' := by
  induction m generalizing lo with
  | nil => exact read_cons b [] rfl a'
  | cons p m ih =>
    obtain ⟨k, c⟩ := p
    have hk : Memory.wfFrom (k + 1) m = true := by simp_all [Memory.wfFrom]
    have hkc : Memory.wfFrom k ((k, c) :: m) = true := by simp_all [Memory.wfFrom]
    simp only [Memory.write]
    split
    · exact read_cons b _ (wfFrom_mono (by omega) _ hkc) a'
    · split
      · subst_vars
        rw [read_cons b m hk]
        split
        · rfl
        · simp_all [Memory.read]
          intro hlt
          exact read_below m hk (by omega)
      · simp only [Memory.read, ih (k + 1) hk]
        grind

theorem write_wfFrom {lo a : Nat} (b : Byte) (m : Memory) (hlo : lo ≤ a) (ha : a < memSize)
    (hm : m.wfFrom lo = true) : (m.write a b).wfFrom lo = true := by
  induction m generalizing lo with
  | nil => exact cons_wfFrom b [] hlo ha rfl
  | cons p m ih =>
    obtain ⟨k, c⟩ := p
    simp only [Memory.wfFrom, Bool.and_eq_true, decide_eq_true_eq] at hm
    simp only [Memory.write]
    split
    · exact cons_wfFrom b _ hlo ha (by simp [Memory.wfFrom, hm]; omega)
    · split
      · subst_vars; exact cons_wfFrom b m hlo ha hm.2
      · simp [Memory.wfFrom, hm, ih (show k + 1 ≤ a by omega) hm.2]

/-- A read after a write: the written byte there, the old byte elsewhere. -/
theorem read_write {m : Memory} (hm : m.wf = true) (a : Nat) (b : Byte) (a' : Nat) :
    (m.write a b).read a' = if a' = a then b else m.read a' := read_write_from 0 a b m hm a'

/-- A write keeps the canonical form. -/
theorem write_wf {m : Memory} (hm : m.wf = true) {a : Nat} (ha : a < memSize) (b : Byte) :
    (m.write a b).wf = true := write_wfFrom b m (Nat.zero_le a) ha hm

/-! ### Byte accesses and the fetch -/

theorem memRead_ok {a : Nat} {s : State} {b : Byte} : memRead a s = .ok b ↔ a < memSize ∧ b = s.mem.read a := by
  unfold memRead; split <;> simp <;> grind

theorem memRead_error {a e : Nat} {s : State} : memRead a s = .error e ↔ memSize ≤ a ∧ e = a := by
  unfold memRead; split <;> simp <;> grind

theorem memWrite_ok {a : Nat} {b : Byte} {s t : State} :
    memWrite a b s = .ok t ↔ a < memSize ∧ t = { s with mem := s.mem.write a b } := by
  unfold memWrite; split <;> simp <;> grind

theorem memWrite_error {a e : Nat} {b : Byte} {s : State} : memWrite a b s = .error e ↔ memSize ≤ a ∧ e = a := by
  unfold memWrite; split <;> simp <;> grind

/-- The fetch depends on `pc` and memory alone. -/
theorem fetch16_congr {s t : State} (hpc : t.pc = s.pc) (hmem : t.mem = s.mem) : fetch16 t = fetch16 s := by
  simp [fetch16, memRead, hpc, hmem]

/-- A fetch that succeeds: `pc` and the byte after it are inside memory. -/
theorem fetch16_ok {s : State} {w : Word} : fetch16 s = .ok w ↔
    s.pc.toNat + 1 < memSize ∧ w = wordOfBytes (s.mem.read s.pc.toNat) (s.mem.read (s.pc.toNat + 1)) := by
  unfold fetch16 memRead
  grind [memSize]

/-- A fetch that faults: the first of the two addresses that is out of range. -/
theorem fetch16_error {s : State} {e : Nat} : fetch16 s = .error e ↔
    memSize ≤ s.pc.toNat + 1 ∧ e = if memSize ≤ s.pc.toNat then s.pc.toNat else s.pc.toNat + 1 := by
  unfold fetch16 memRead
  grind [memSize]

/-! ### Runs of accesses -/

/-- The bytes of `mem` from `base` replaced by `bs`. -/
theorem storeBytes_done {base : Nat} {bs : List Byte} {s t : State} {u : Unit} (h : storeBytes base bs s = .done u t) :
    (bs ≠ [] → base + bs.length ≤ memSize) ∧ t = { s with mem := t.mem } ∧
      (s.mem.wf = true → t.mem.wf = true ∧
        ∀ a, t.mem.read a = if base ≤ a ∧ a < base + bs.length then bs.getD (a - base) 0 else s.mem.read a) := by
  induction bs generalizing base s with
  | nil =>
    simp only [storeBytes, Run.done.injEq] at h
    obtain ⟨-, rfl⟩ := h
    simp
  | cons b bs ih =>
    unfold storeBytes at h
    split at h
    · simp at h
    rename_i s' hw
    obtain ⟨hb, rfl⟩ := memWrite_ok.1 hw
    obtain ⟨h1, h2, h3⟩ := ih h
    refine ⟨?_, ?_, ?_⟩
    · intro _
      by_cases hbs : bs = []
      · subst hbs; simp; omega
      · have := h1 hbs; simp; omega
    · rw [h2]
    · intro hwf
      obtain ⟨h4, h5⟩ := h3 (write_wf hwf hb b)
      refine ⟨h4, fun a => ?_⟩
      rw [h5]
      simp only [read_write hwf, List.length_cons]
      by_cases ha : a = base
      · subst ha; simp
      · by_cases hr : base + 1 ≤ a ∧ a < base + 1 + bs.length
        · obtain ⟨j, rfl⟩ : ∃ j, a = base + 1 + j := ⟨a - (base + 1), by omega⟩
          rw [if_pos hr, if_pos (by omega), show base + 1 + j - (base + 1) = j by omega,
            show base + 1 + j - base = j + 1 by omega]
          simp
        · rw [if_neg hr, if_neg ha, if_neg (by omega)]

/-- Where a run of writes stops: at the first address out of range, with the bytes before it written. -/
theorem storeBytes_stopped {base e : Nat} {bs : List Byte} {s t : State} (h : storeBytes base bs s = .stopped e t) :
    memSize < base + bs.length ∧ e = max base memSize ∧ t = { s with mem := t.mem } ∧
      (s.mem.wf = true → t.mem.wf = true ∧
        ∀ a, t.mem.read a = if base ≤ a ∧ a < memSize then bs.getD (a - base) 0 else s.mem.read a) := by
  induction bs generalizing base s with
  | nil => simp [storeBytes] at h
  | cons b bs ih =>
    unfold storeBytes at h
    split at h
    · rename_i e' hw
      obtain ⟨hb, rfl⟩ := memWrite_error.1 hw
      simp only [Run.stopped.injEq] at h
      obtain ⟨rfl, rfl⟩ := h
      refine ⟨by simp; omega, by omega, rfl, fun hwf => ⟨hwf, fun a => ?_⟩⟩
      rw [if_neg (by omega)]
    · rename_i s' hw
      obtain ⟨hb, rfl⟩ := memWrite_ok.1 hw
      obtain ⟨h1, h2, h3, h4⟩ := ih h
      refine ⟨by simp; omega, by omega, by rw [h3], fun hwf => ?_⟩
      obtain ⟨h5, h6⟩ := h4 (write_wf hwf hb b)
      refine ⟨h5, fun a => ?_⟩
      rw [h6]
      simp only [read_write hwf]
      by_cases ha : a = base
      · subst ha; simp; omega
      · by_cases hr : base + 1 ≤ a ∧ a < memSize
        · obtain ⟨j, rfl⟩ : ∃ j, a = base + 1 + j := ⟨a - (base + 1), by omega⟩
          rw [if_pos hr, if_pos (by omega), show base + 1 + j - (base + 1) = j by omega,
            show base + 1 + j - base = j + 1 by omega]
          simp
        · rw [if_neg hr, if_neg ha, if_neg (by omega)]

/-- A run of writes stops exactly when it reaches an address out of range. -/
theorem storeBytes_total (base : Nat) (bs : List Byte) (s : State) :
    (bs = [] ∨ base + bs.length ≤ memSize → ∃ t, storeBytes base bs s = .done () t) ∧
    (bs ≠ [] → memSize < base + bs.length → ∃ e t, storeBytes base bs s = .stopped e t) := by
  cases h : storeBytes base bs s with
  | done u t =>
    have := (storeBytes_done h).1
    exact ⟨fun _ => ⟨t, rfl⟩, fun hb hl => absurd (this hb) (by omega)⟩
  | stopped e t =>
    have := (storeBytes_stopped h).1
    refine ⟨fun hb => ?_, fun _ _ => ⟨e, t, rfl⟩⟩
    rcases hb with rfl | hb
    · simp [storeBytes] at h
    · omega

/-- What a finished run of loads leaves: the registers from `k` up hold the bytes from `base` up. -/
theorem loadRegs_done {base k n : Nat} {s t : State} {u : Unit} (hk : k + n ≤ 16) (h : loadRegs base k n s = .done u t) :
    (n ≠ 0 → base + n ≤ memSize) ∧ t = { s with V := t.V } ∧
      ∀ r : Reg, readV r t = if k ≤ r.toNat ∧ r.toNat < k + n then s.mem.read (base + (r.toNat - k)) else readV r s := by
  induction n generalizing base k s with
  | zero =>
    simp only [loadRegs, Run.done.injEq] at h
    obtain ⟨-, rfl⟩ := h
    simp
  | succ n ih =>
    unfold loadRegs at h
    split at h
    · simp at h
    rename_i b hb
    obtain ⟨hb, rfl⟩ := memRead_ok.1 hb
    obtain ⟨h1, h2, h3⟩ := ih (by omega) h
    refine ⟨fun _ => ?_, by rw [h2]; rfl, fun r => ?_⟩
    · by_cases hn : n = 0
      · omega
      · have := h1 hn; omega
    · rw [h3]
      simp only [readV_writeV, writeV_mem]
      have hr : r = BitVec.ofNat 4 k ↔ r.toNat = k := by
        rw [← BitVec.toNat_inj]; simp [Nat.mod_eq_of_lt (show k < 16 by omega)]
      simp only [hr]
      by_cases hrk : r.toNat = k
      · rw [if_neg (by omega), if_pos hrk, if_pos (by omega)]; simp [hrk]
      · by_cases hin : k + 1 ≤ r.toNat ∧ r.toNat < k + 1 + n
        · rw [if_pos hin, if_pos (by omega), show base + 1 + (r.toNat - (k + 1)) = base + (r.toNat - k) by omega]
        · rw [if_neg hin, if_neg hrk, if_neg (by omega)]

/-- Where a run of loads stops: at the first address out of range, with the registers before it loaded. -/
theorem loadRegs_stopped {base k n e : Nat} {s t : State} (hk : k + n ≤ 16) (h : loadRegs base k n s = .stopped e t) :
    memSize < base + n ∧ e = max base memSize ∧ t = { s with V := t.V } ∧
      ∀ r : Reg, readV r t =
        if k ≤ r.toNat ∧ base + (r.toNat - k) < memSize ∧ r.toNat < k + n then s.mem.read (base + (r.toNat - k))
        else readV r s := by
  induction n generalizing base k s with
  | zero => simp [loadRegs] at h
  | succ n ih =>
    unfold loadRegs at h
    split at h
    · rename_i e' hb
      obtain ⟨hb, rfl⟩ := memRead_error.1 hb
      simp only [Run.stopped.injEq] at h
      obtain ⟨rfl, rfl⟩ := h
      refine ⟨by omega, by omega, rfl, fun r => ?_⟩
      rw [if_neg (by omega)]
    · rename_i b hb
      obtain ⟨hb, rfl⟩ := memRead_ok.1 hb
      obtain ⟨h1, h2, h3, h4⟩ := ih (by omega) h
      refine ⟨by omega, by omega, by rw [h3]; rfl, fun r => ?_⟩
      rw [h4]
      simp only [readV_writeV, writeV_mem]
      have hr : r = BitVec.ofNat 4 k ↔ r.toNat = k := by
        rw [← BitVec.toNat_inj]; simp [Nat.mod_eq_of_lt (show k < 16 by omega)]
      simp only [hr]
      by_cases hrk : r.toNat = k
      · rw [if_neg (by omega), if_pos hrk, if_pos (by omega)]; simp [hrk]
      · by_cases hin : k + 1 ≤ r.toNat ∧ base + 1 + (r.toNat - (k + 1)) < memSize ∧ r.toNat < k + 1 + n
        · rw [if_pos hin, if_pos (by omega), show base + 1 + (r.toNat - (k + 1)) = base + (r.toNat - k) by omega]
        · rw [if_neg hin, if_neg hrk, if_neg (by omega)]

/-- A run of loads stops exactly when it reaches an address out of range. -/
theorem loadRegs_total {base k n : Nat} (hk : k + n ≤ 16) (s : State) :
    (n = 0 ∨ base + n ≤ memSize → ∃ t, loadRegs base k n s = .done () t) ∧
    (n ≠ 0 → memSize < base + n → ∃ e t, loadRegs base k n s = .stopped e t) := by
  cases h : loadRegs base k n s with
  | done u t =>
    have := (loadRegs_done hk h).1
    exact ⟨fun _ => ⟨t, rfl⟩, fun hb hl => absurd (this hb) (by omega)⟩
  | stopped e t =>
    have := (loadRegs_stopped hk h).1
    refine ⟨fun hb => ?_, fun _ _ => ⟨e, t, rfl⟩⟩
    rcases hb with rfl | hb
    · simp [loadRegs] at h
    · omega

end Sys2Proof.Machine
end

