-- ==== Sys2Proof/Laws/Framebuffer.lean ====
section
/-! SUPPORT. The framebuffer and the sprite loop: what one pixel holds after each operation (40_display R100 to R104). -/

namespace Sys2Proof.Machine

/-! ### Propositions -/

/-- Toggling for one reason and then for another that excludes it is toggling for either. -/
theorem toggle_or {p a b : Prop} (h : b → ¬ a) : ((p ↔ ¬ a) ↔ ¬ b) ↔ (p ↔ ¬ (a ∨ b)) := by
  by_cases hb : b
  · simp [hb, h hb]
  · simp [hb]

/-! ### Pixels -/

theorem pixel_setPixel (fb : Framebuffer) (r r' : Fin 32) (c c' : Fin 64) (on : Bool) :
    (fb.setPixel r c on).pixel r' c' = if r' = r ∧ c' = c then on else fb.pixel r' c' := by
  simp only [Framebuffer.pixel, Framebuffer.setPixel, Vector.getElem_set, Fin.ext_iff]
  grind

@[simp] theorem pixel_blank (r : Fin 32) (c : Fin 64) : Framebuffer.blank.pixel r c = false := by
  simp [Framebuffer.pixel, Framebuffer.blank]

/-- Two framebuffers with the same pixels are the same. -/
theorem framebuffer_ext {a b : Framebuffer} (h : ∀ r c, a.pixel r c = b.pixel r c) : a = b := by
  refine Vector.ext fun r hr => Vector.ext fun c hc => ?_
  exact h ⟨r, hr⟩ ⟨c, hc⟩

/-- Wrapping apart two columns of one sprite row (R100: "The 8 columns of one row are distinct"). -/
theorem column_inj {x b b' : Nat} (hb : b < 8) (hb' : b' < 8) (h : Fin.ofNat 64 (x + b) = Fin.ofNat 64 (x + b')) :
    b = b' := by
  simp only [Fin.ofNat, Fin.mk.injEq] at h; omega

/-- Wrapping apart two rows of one sprite (R104: "no two rows of one sprite fall on the same framebuffer row"). -/
theorem row_inj {y k k' : Nat} (hk : k < 32) (hk' : k' < 32) (h : Fin.ofNat 32 (y + k) = Fin.ofNat 32 (y + k')) :
    k = k' := by
  simp only [Fin.ofNat, Fin.mk.injEq] at h; omega

/-! ### One row -/

/-- Does one of the first `m` bits of the byte, drawn at column `x`, light column `c`? -/
def RowLights (byte : Byte) (x m : Nat) (c : Fin 64) : Prop :=
  ∃ b < m, c = Fin.ofNat 64 (x + b) ∧ byte.getLsbD (7 - b) = true

theorem drawBits_spec (byte : Byte) (x : Nat) (row : Fin 32) (fb : Framebuffer) (m : Nat) (hm : m ≤ 8) :
    let d := (List.range m).foldl (drawBit byte x row) (fb, false)
    (∀ r c, d.1.pixel r c = true ↔ (fb.pixel r c = true ↔ ¬ (r = row ∧ RowLights byte x m c))) ∧
    (d.2 = true ↔ ∃ b < m, byte.getLsbD (7 - b) = true ∧ fb.pixel row (Fin.ofNat 64 (x + b)) = true) := by
  induction m with
  | zero => simp [RowLights]
  | succ m ih =>
    obtain ⟨h1, h2⟩ := ih (by omega)
    simp only [List.range_succ, List.foldl_append, List.foldl_cons, List.foldl_nil]
    generalize (List.range m).foldl (drawBit byte x row) (fb, false) = d at h1 h2
    have fresh : ¬ RowLights byte x m (Fin.ofNat 64 (x + m)) := by
      rintro ⟨b, hb, hc, -⟩
      have := column_inj (x := x) (by omega) (by omega) hc
      omega
    have hbefore : d.1.pixel row (Fin.ofNat 64 (x + m)) = fb.pixel row (Fin.ofNat 64 (x + m)) := by
      rw [Bool.eq_iff_iff, h1]; simp only [fresh, and_false, not_false_eq_true, iff_true]
    have hlights (c : Fin 64) : RowLights byte x (m + 1) c ↔
        RowLights byte x m c ∨ (c = Fin.ofNat 64 (x + m) ∧ byte.getLsbD (7 - m) = true) := by
      simp only [RowLights, Nat.exists_lt_succ_right]
    constructor
    · intro r c
      simp only [drawBit, pixel_setPixel, hbefore, hlights]
      by_cases h : r = row ∧ c = Fin.ofNat 64 (x + m)
      · obtain ⟨rfl, rfl⟩ := h
        simp only [and_self, if_true, true_and, fresh, false_or]
        cases byte.getLsbD (7 - m) <;> simp
      · rw [if_neg h, h1]
        have : ¬ (r = row ∧ c = Fin.ofNat 64 (x + m) ∧ byte.getLsbD (7 - m) = true) := fun g => h ⟨g.1, g.2.1⟩
        simp only [and_or_left, this, or_false]
    · simp only [drawBit, hbefore, Bool.or_eq_true, h2, Bool.and_eq_true, Nat.exists_lt_succ_right,
        and_comm (a := fb.pixel row _ = true)]

/-- `DrawRow` (R100): the pixels it leaves and the erasure it reports. -/
theorem drawRow_spec (byte : Byte) (x y : Nat) (fb : Framebuffer) :
    (∀ r c, (drawRow byte x y fb).1.pixel r c = true ↔
      (fb.pixel r c = true ↔ ¬ (r = Fin.ofNat 32 y ∧ RowLights byte x 8 c))) ∧
    ((drawRow byte x y fb).2 = true ↔
      ∃ b < 8, byte.getLsbD (7 - b) = true ∧ fb.pixel (Fin.ofNat 32 y) (Fin.ofNat 64 (x + b)) = true) :=
  drawBits_spec byte x (Fin.ofNat 32 y) fb 8 (le_refl 8)

/-! ### The sprite -/

theorem spriteLights_succ (s : State) (base cx cy n : Nat) (r : Fin 32) (c : Fin 64) :
    SpriteLights s base cx cy (n + 1) r c ↔
      (r = Fin.ofNat 32 cy ∧ RowLights (s.mem.read base) cx 8 c) ∨ SpriteLights s (base + 1) cx (cy + 1) n r c := by
  constructor
  · rintro ⟨k, hk, b, hb, hr, hc, hbit⟩
    cases k with
    | zero => exact .inl ⟨by simpa using hr, b, hb, hc, by simpa [spriteBit] using hbit⟩
    | succ k =>
      exact .inr ⟨k, by omega, b, hb, by rw [hr]; congr 1; omega, hc, by
        simpa [spriteBit, Nat.add_assoc, Nat.add_comm 1 k] using hbit⟩
  · rintro (⟨hr, b, hb, hc, hbit⟩ | ⟨k, hk, b, hb, hr, hc, hbit⟩)
    · exact ⟨0, by omega, b, hb, by simpa using hr, hc, by simpa [spriteBit] using hbit⟩
    · exact ⟨k + 1, by omega, b, hb, by rw [hr]; congr 1; omega, hc, by
        simpa [spriteBit, Nat.add_assoc, Nat.add_comm 1 k] using hbit⟩

theorem spriteErases_succ (s : State) (base cx cy n : Nat) :
    SpriteErases s base cx cy (n + 1) ↔
      (∃ b < 8, (s.mem.read base).getLsbD (7 - b) = true ∧
        s.fb.pixel (Fin.ofNat 32 cy) (Fin.ofNat 64 (cx + b)) = true) ∨ SpriteErases s (base + 1) cx (cy + 1) n := by
  constructor
  · rintro ⟨k, hk, b, hb, hbit, hpix⟩
    cases k with
    | zero => exact .inl ⟨b, hb, by simpa [spriteBit] using hbit, by simpa using hpix⟩
    | succ k =>
      exact .inr ⟨k, by omega, b, hb, by simpa [spriteBit, Nat.add_assoc, Nat.add_comm 1 k] using hbit, by
        rwa [show cy + 1 + k = cy + (k + 1) by omega]⟩
  · rintro (⟨b, hb, hbit, hpix⟩ | ⟨k, hk, b, hb, hbit, hpix⟩)
    · exact ⟨0, by omega, b, hb, by simpa [spriteBit] using hbit, by simpa using hpix⟩
    · exact ⟨k + 1, by omega, b, hb, by simpa [spriteBit, Nat.add_assoc, Nat.add_comm 1 k] using hbit, by
        rwa [show cy + (k + 1) = cy + 1 + k by omega]⟩

/-- What the sprite lights does not depend on the framebuffer. -/
theorem spriteLights_fb (s : State) (fb : Framebuffer) (base cx cy n : Nat) (r : Fin 32) (c : Fin 64) :
    SpriteLights { s with fb := fb } base cx cy n r c ↔ SpriteLights s base cx cy n r c := Iff.rfl

/-- A row that the sprite's first row falls on is none of the rows after it. -/
theorem spriteLights_ne_row {s : State} {base cx cy n : Nat} {r : Fin 32} {c : Fin 64} (hn : n < 32)
    (h : SpriteLights s base cx (cy + 1) n r c) : r ≠ Fin.ofNat 32 cy := by
  obtain ⟨k, hk, b, hb, rfl, -⟩ := h
  intro h
  have := row_inj (y := cy) (k := 1 + k) (k' := 0) (by omega) (by omega) (by simpa [Nat.add_assoc] using h)
  omega

/-- The frames of the sprite loop: only the pixels of the rows drawn. -/
theorem spriteErases_drawRow {s : State} (byte : Byte) (base cx cy n : Nat) (hn : n < 32) :
    SpriteErases { s with fb := (drawRow byte cx cy s.fb).1 } base cx (cy + 1) n ↔
      SpriteErases s base cx (cy + 1) n := by
  have key (k : Nat) (hk : k < n) (c : Fin 64) :
      (drawRow byte cx cy s.fb).1.pixel (Fin.ofNat 32 (cy + 1 + k)) c = s.fb.pixel (Fin.ofNat 32 (cy + 1 + k)) c := by
    rw [Bool.eq_iff_iff, (drawRow_spec byte cx cy s.fb).1]
    have : Fin.ofNat 32 (cy + 1 + k) ≠ Fin.ofNat 32 cy := fun h => by
      have := row_inj (y := cy) (k := 1 + k) (k' := 0) (by omega) (by omega) (by simpa [Nat.add_assoc] using h)
      omega
    simp only [this, false_and, not_false_eq_true, iff_true]
  constructor
  · rintro ⟨k, hk, b, hb, hbit, hpix⟩
    exact ⟨k, hk, b, hb, hbit, by rw [← key k hk]; exact hpix⟩
  · rintro ⟨k, hk, b, hb, hbit, hpix⟩
    exact ⟨k, hk, b, hb, hbit, by rw [← key k hk] at hpix; exact hpix⟩

/-- The step of the sprite loop on one pixel. -/
theorem spritePixel_step {s : State} {base cx cy n : Nat} (hn : n < 32) {r : Fin 32} {c : Fin 64} {p : Prop}
    (h : p ↔ ((drawRow (s.mem.read base) cx cy s.fb).1.pixel r c = true ↔ ¬ SpriteLights s (base + 1) cx (cy + 1) n r c)) :
    p ↔ (s.fb.pixel r c = true ↔ ¬ SpriteLights s base cx cy (n + 1) r c) := by
  rw [h, (drawRow_spec _ _ _ _).1, spriteLights_succ]
  exact toggle_or fun hl hr => spriteLights_ne_row hn hl hr.1

/-- The loop of Dxyn, when every row is read (R104): the pixels, and whether a row reported an erasure. -/
theorem drawRows_done {base cx cy r n : Nat} {any a : Bool} {s t : State} (hn : n ≤ 32)
    (h : drawRows base cx cy r n any s = .done a t) :
    (n ≠ 0 → base + r + n ≤ memSize) ∧ t = { s with fb := t.fb } ∧
      (∀ row c, t.fb.pixel row c = true ↔
        (s.fb.pixel row c = true ↔ ¬ SpriteLights s (base + r) cx (cy + r) n row c)) ∧
      (a = true ↔ any = true ∨ SpriteErases s (base + r) cx (cy + r) n) := by
  induction n generalizing r any s with
  | zero =>
    simp only [drawRows, Run.done.injEq] at h
    obtain ⟨rfl, rfl⟩ := h
    simp [SpriteLights, SpriteErases]
  | succ n ih =>
    unfold drawRows at h
    split at h
    · simp at h
    rename_i byte hb
    obtain ⟨hb, rfl⟩ := memRead_ok.1 hb
    obtain ⟨h1, h2, h3, h4⟩ := ih (by omega) h
    simp only [← Nat.add_assoc] at h1 h2 h3 h4
    refine ⟨fun _ => ?_, by rw [h2], fun row c => ?_, ?_⟩
    · by_cases hn : n = 0
      · omega
      · have := h1 hn; omega
    · exact spritePixel_step (by omega) (h3 row c)
    · rw [h4, spriteErases_drawRow _ _ _ _ _ (by omega), spriteErases_succ, Bool.or_eq_true,
        (drawRow_spec _ _ _ _).2, or_assoc]

/-- Where the loop of Dxyn stops: at the first address out of range, with the rows before it drawn. -/
theorem drawRows_stopped {base cx cy r n e : Nat} {any : Bool} {s t : State} (hn : n ≤ 32)
    (h : drawRows base cx cy r n any s = .stopped e t) :
    memSize < base + r + n ∧ e = max (base + r) memSize ∧ t = { s with fb := t.fb } ∧
      (∀ row c, t.fb.pixel row c = true ↔
        (s.fb.pixel row c = true ↔ ¬ SpriteLights s (base + r) cx (cy + r) (memSize - (base + r)) row c)) := by
  induction n generalizing r any s with
  | zero => simp [drawRows] at h
  | succ n ih =>
    unfold drawRows at h
    split at h
    · rename_i e' hb
      obtain ⟨hb, rfl⟩ := memRead_error.1 hb
      simp only [Run.stopped.injEq] at h
      obtain ⟨rfl, rfl⟩ := h
      refine ⟨by omega, by omega, rfl, fun row c => ?_⟩
      simp [SpriteLights, show memSize - (base + r) = 0 by omega]
    · rename_i byte hb
      obtain ⟨hb, rfl⟩ := memRead_ok.1 hb
      obtain ⟨h1, h2, h3, h4⟩ := ih (by omega) h
      simp only [← Nat.add_assoc] at h1 h2 h3 h4
      refine ⟨by omega, by omega, by rw [h3], fun row c => ?_⟩
      rw [show memSize - (base + r) = memSize - (base + r + 1) + 1 by omega]
      exact spritePixel_step (by omega) (h4 row c)

/-- The loop of Dxyn stops exactly when it reaches an address out of range. -/
theorem drawRows_total {base cx cy n : Nat} (hn : n ≤ 32) (any : Bool) (s : State) :
    (n = 0 ∨ base + n ≤ memSize → ∃ a t, drawRows base cx cy 0 n any s = .done a t) ∧
    (n ≠ 0 → memSize < base + n → ∃ e t, drawRows base cx cy 0 n any s = .stopped e t) := by
  cases h : drawRows base cx cy 0 n any s with
  | done a t =>
    have := (drawRows_done hn h).1
    exact ⟨fun _ => ⟨a, t, rfl⟩, fun hb hl => absurd (this hb) (by omega)⟩
  | stopped e t =>
    have := (drawRows_stopped hn h).1
    refine ⟨fun hb => ?_, fun _ _ => ⟨e, t, rfl⟩⟩
    rcases hb with rfl | hb
    · simp [drawRows] at h
    · omega

end Sys2Proof.Machine
end

