-- ==== Sys2Proof/Laws/Ops.lean ====
section
/-! SUPPORT. What the other shared operations can do: the stack, the keypad, the draw, a run's conclusion, and one STEP (said once: `step_next`, `step_fault`). -/

namespace Sys2Proof.Machine

/-! ### The call stack (10_state R27) -/

theorem push_none {v : Word} {s : State} : push v s = none ↔ s.cfg.stackLimit = some s.stack.length := by
  unfold push; split <;> simp_all

theorem push_some {v : Word} {s t : State} :
    push v s = some t ↔ s.cfg.stackLimit ≠ some s.stack.length ∧ t = { s with stack := s.stack ++ [v] } := by
  unfold push; split <;> simp_all [eq_comm]

theorem pop_none {s : State} : pop s = none ↔ s.stack = [] := by
  rcases List.eq_nil_or_concat s.stack with h | ⟨rest, u, h⟩ <;> simp [pop, h]

theorem pop_some {v : Word} {s t : State} :
    pop s = some (v, t) ↔ ∃ rest, s.stack = rest ++ [v] ∧ t = { s with stack := rest } := by
  rcases List.eq_nil_or_concat s.stack with h | ⟨rest, u, h⟩
  · have : pop s = none := pop_none.2 h
    simp [this, h]
  · have : pop s = some (u, { s with stack := rest }) := by simp [pop, h]
    simp only [this, h, Option.some.injEq, Prod.mk.injEq, List.concat_eq_append, List.append_singleton_inj]
    grind

/-! ### The keypad (44_timers_keypad R190, R194) -/

theorem keyPressed_none {k : Byte} {s : State} : keyPressed k s = none ↔ 16 ≤ k.toNat := by
  unfold keyPressed; split <;> simp_all

theorem keyPressed_some {k : Byte} {s : State} {p : Bool} :
    keyPressed k s = some p ↔ k.toNat < 16 ∧ p = keyAt s.keys k.toNat := by
  unfold keyPressed; split <;> simp_all [eq_comm]

theorem firstPressed_none {s : State} : firstPressed s = none ↔ ∀ k < 16, keyAt s.keys k = false := by
  simp [firstPressed]

theorem firstPressed_some {s : State} {k : Nat} :
    firstPressed s = some k ↔ k < 16 ∧ keyAt s.keys k = true ∧ ∀ j < k, keyAt s.keys j = false := by
  simp only [firstPressed, List.find?_range_eq_some, Bool.not_eq_true', List.mem_range]
  grind

/-! ### The end of a run of accesses -/

theorem conclude_next {α : Type} {r : Run α} {i : Instr} {k : α → State → State} {t : State} :
    r.conclude i k = .next t ↔ ∃ a u, r = .done a u ∧ t = k a u := by
  cases r <;> simp [Run.conclude, raiseAddressing, raise, eq_comm]

theorem conclude_fault {α : Type} {r : Run α} {i : Instr} {k : α → State → State} {f : Fault} :
    r.conclude i k = .fault f ↔ ∃ e u, r = .stopped e u ∧ f = .addressing u.pc (some (encode i)) e u := by
  cases r <;> simp [Run.conclude, raiseAddressing, raise, eq_comm]

/-! ### One STEP (30_encoding R83) -/

/-- A STEP that ends `Ok` fetched a word, decoded it, and ran it. -/
theorem step_next {s t : State} (h : step s = .next t) :
    ∃ w i, fetch16 s = .ok w ∧ decode s.cfg w = .ok i ∧ exec i s = .next t := by
  unfold step at h
  split at h
  · simp at h
  · split at h
    · simp at h
    · exact ⟨_, _, ‹_›, ‹_›, h⟩

/-- A STEP that faults: at the fetch, in the decode phase, or in the execute phase, in that order (60_exceptions R218). -/
theorem step_fault {s : State} {f : Fault} (h : step s = .fault f) :
    (∃ e, fetch16 s = .error e ∧ f = .addressing s.pc none e s) ∨
    (∃ w e, fetch16 s = .ok w ∧ decode s.cfg w = .error e ∧ f = .unknownOpcode s.pc w s) ∨
    (∃ w i, fetch16 s = .ok w ∧ decode s.cfg w = .ok i ∧ exec i s = .fault f) := by
  unfold step at h
  split at h
  · exact .inl ⟨_, ‹_›, by simpa [eq_comm] using h⟩
  · split at h
    · exact .inr (.inl ⟨_, _, ‹_›, ‹_›, by simpa [eq_comm] using h⟩)
    · exact .inr (.inr ⟨_, _, ‹_›, ‹_›, h⟩)

/-! ### Record updates that a frame sees through -/

@[simp] theorem keyAt_out {keys : Vector Bool 16} {k : Nat} (h : 16 ≤ k) : keyAt keys k = false := by
  simp [keyAt, h]

end Sys2Proof.Machine
end

