-- ==== Sys2Proof/Laws/Exec.lean ====
section
/-! SUPPORT. The meanings with more than one outcome, inverted once: what a next state and what a fault of each of them says. -/

namespace Sys2Proof.Machine

/-! ### Control transfer -/

theorem execRet_next {s t : State} : execRet s = .next t ↔
    ∃ rest v, s.stack = rest ++ [v] ∧ t = jumpTo v { s with stack := rest } := by
  unfold execRet
  cases h : pop s with
  | none => rw [pop_none] at h; simp [h, raise]
  | some p =>
    obtain ⟨v, u⟩ := p
    obtain ⟨rest, hr, rfl⟩ := pop_some.1 h
    simp only [Host.Outcome.next.injEq, hr, List.append_singleton_inj]
    grind

theorem execRet_fault {s : State} {f : Fault} : execRet s = .fault f ↔
    s.stack = [] ∧ f = .stackUnderflow s.pc (encode .ret) s := by
  unfold execRet
  cases h : pop s with
  | none => rw [pop_none] at h; simp [h, raise, eq_comm]
  | some p =>
    obtain ⟨v, u⟩ := p
    obtain ⟨rest, hr, rfl⟩ := pop_some.1 h
    simp [hr]

theorem execCall_next {nnn : Imm12} {s t : State} : execCall nnn s = .next t ↔
    s.cfg.stackLimit ≠ some s.stack.length ∧ t = jumpTo (zextImm nnn) { s with stack := s.stack ++ [s.pc + 2] } := by
  unfold execCall push
  split <;> rename_i h <;> split at h <;> simp_all [raise, eq_comm]

theorem execCall_fault {nnn : Imm12} {s : State} {f : Fault} : execCall nnn s = .fault f ↔
    s.cfg.stackLimit = some s.stack.length ∧ f = .stackOverflow s.pc (encode (.call nnn)) s := by
  unfold execCall push
  split <;> rename_i h <;> split at h <;> simp_all [raise, eq_comm]

/-! ### The index register and 8xy1 -/

theorem execAddI_next {x : Reg} {s t : State} : execAddI x s = .next t ↔
    s.I.toNat + (readV x s).toNat ≤ 0xFFFF ∧
      t = advance { s with I := BitVec.ofNat 16 (s.I.toNat + (readV x s).toNat) } := by
  simp only [execAddI, raiseAddressing, raise]
  split
  · simp; omega
  · simp only [Host.Outcome.next.injEq, eq_comm (b := t)]; grind

theorem execAddI_fault {x : Reg} {s : State} {f : Fault} : execAddI x s = .fault f ↔
    0xFFFF < s.I.toNat + (readV x s).toNat ∧
      f = .addressing s.pc (some (encode (.addI x))) (s.I.toNat + (readV x s).toNat) s := by
  simp only [execAddI, raiseAddressing, raise]
  split <;> simp_all [eq_comm]

theorem execOrReg_next {x y : Reg} {s t : State} : execOrReg x y s = .next t ↔
    s.cfg.or8xy1 = true ∧ t = advance (writeV x (readV x s ||| readV y s) s) := by
  cases h : s.cfg.or8xy1 <;> simp [execOrReg, raise, h, eq_comm (b := t)]

theorem execOrReg_fault {x y : Reg} {s : State} {f : Fault} : execOrReg x y s = .fault f ↔
    s.cfg.or8xy1 = false ∧ f = .unknownOpcode s.pc (encode (.orReg x y)) s := by
  cases h : s.cfg.or8xy1 <;> simp [execOrReg, raise, h, eq_comm (b := f)]

/-! ### The keypad -/

theorem execSkp_next {x : Reg} {s t : State} : execSkp x s = .next t ↔
    (readV x s).toNat < 16 ∧ t = skipIf (keyAt s.keys (readV x s).toNat) s := by
  unfold execSkp keyPressed raiseKeypadUsage raise
  split <;> rename_i h <;> split at h <;> simp_all [eq_comm]

theorem execSkp_fault {x : Reg} {s : State} {f : Fault} : execSkp x s = .fault f ↔
    16 ≤ (readV x s).toNat ∧ f = .keypadUsage s.pc (encode (.skp x)) (readV x s) s := by
  unfold execSkp keyPressed raiseKeypadUsage raise
  split <;> rename_i h <;> split at h <;> simp_all [eq_comm]

theorem execSknp_next {x : Reg} {s t : State} : execSknp x s = .next t ↔
    (readV x s).toNat < 16 ∧ t = skipIf (!keyAt s.keys (readV x s).toNat) s := by
  unfold execSknp keyPressed raiseKeypadUsage raise
  split <;> rename_i h <;> split at h <;> simp_all [eq_comm]

theorem execSknp_fault {x : Reg} {s : State} {f : Fault} : execSknp x s = .fault f ↔
    16 ≤ (readV x s).toNat ∧ f = .keypadUsage s.pc (encode (.sknp x)) (readV x s) s := by
  unfold execSknp keyPressed raiseKeypadUsage raise
  split <;> rename_i h <;> split at h <;> simp_all [eq_comm]

/-- Fx0A ends in one of two ways: no key and no change, or the least pressed key in the register. -/
theorem execLdVxK_next {x : Reg} {s t : State} : execLdVxK x s = .next t ↔
    (firstPressed s = none ∧ t = s) ∨
      ∃ k, firstPressed s = some k ∧ t = advance (writeV x (BitVec.ofNat 8 k) s) := by
  unfold execLdVxK
  split <;> rename_i h <;> simp [h, eq_comm]

/-! ### Memory and the screen -/

theorem execLdB_next {x : Reg} {s t : State} : execLdB x s = .next t ↔
    ∃ u, storeBytes s.I.toNat (bcdDigits (readV x s)) s = .done () u ∧ t = advance u := by
  rw [execLdB, conclude_next]
  exact ⟨fun ⟨(), u, h⟩ => ⟨u, h⟩, fun ⟨u, h⟩ => ⟨(), u, h⟩⟩

theorem execLdB_fault {x : Reg} {s : State} {f : Fault} (h : execLdB x s = .fault f) :
    ∃ e u, storeBytes s.I.toNat (bcdDigits (readV x s)) s = .stopped e u ∧
      f = .addressing s.pc (some (encode (.ldB x))) e u := by
  obtain ⟨e, u, hu, rfl⟩ := conclude_fault.1 h
  exact ⟨e, u, hu, by rw [(storeBytes_stopped hu).2.2.1]⟩

theorem execStore_next {x : Reg} {s t : State} : execStore x s = .next t ↔
    ∃ u, storeBytes s.I.toNat (regsUpTo x s) s = .done () u ∧ t = advance (advanceIndex s.I x u) := by
  rw [execStore, conclude_next]
  exact ⟨fun ⟨(), u, h⟩ => ⟨u, h⟩, fun ⟨u, h⟩ => ⟨(), u, h⟩⟩

theorem execStore_fault {x : Reg} {s : State} {f : Fault} (h : execStore x s = .fault f) :
    ∃ e u, storeBytes s.I.toNat (regsUpTo x s) s = .stopped e u ∧
      f = .addressing s.pc (some (encode (.store x))) e u := by
  obtain ⟨e, u, hu, rfl⟩ := conclude_fault.1 h
  exact ⟨e, u, hu, by rw [(storeBytes_stopped hu).2.2.1]⟩

/-- The registers Fx65 moves are V0 to VF at most. -/
theorem regCount_le (x : Reg) : 0 + regCount x ≤ 16 := by
  have := x.isLt
  simp only [regCount]; omega

theorem execLoad_next {x : Reg} {s t : State} : execLoad x s = .next t ↔
    ∃ u, loadRegs s.I.toNat 0 (regCount x) s = .done () u ∧ t = advance (advanceIndex s.I x u) := by
  rw [execLoad, conclude_next]
  exact ⟨fun ⟨(), u, h⟩ => ⟨u, h⟩, fun ⟨u, h⟩ => ⟨(), u, h⟩⟩

theorem execLoad_fault {x : Reg} {s : State} {f : Fault} (h : execLoad x s = .fault f) :
    ∃ e u, loadRegs s.I.toNat 0 (regCount x) s = .stopped e u ∧
      f = .addressing s.pc (some (encode (.load x))) e u := by
  obtain ⟨e, u, hu, rfl⟩ := conclude_fault.1 h
  exact ⟨e, u, hu, by rw [(loadRegs_stopped (regCount_le x) hu).2.2.1]⟩

/-- A sprite has fewer rows than the screen. -/
theorem count_le (n : Count) : n.toNat ≤ 32 := by
  have := n.isLt
  omega

theorem execDrw_next {x y : Reg} {n : Count} {s t : State} : execDrw x y n s = .next t ↔
    ∃ a u, drawRows s.I.toNat (readV x s).toNat (readV y s).toNat 0 n.toNat false s = .done a u ∧
      t = advance (writeV VF (flagByte a) u) := by
  simp [execDrw, conclude_next]

theorem execDrw_fault {x y : Reg} {n : Count} {s : State} {f : Fault} (h : execDrw x y n s = .fault f) :
    ∃ e u, drawRows s.I.toNat (readV x s).toNat (readV y s).toNat 0 n.toNat false s = .stopped e u ∧
      f = .addressing s.pc (some (encode (.drw x y n))) e u := by
  obtain ⟨e, u, hu, rfl⟩ := conclude_fault.1 h
  exact ⟨e, u, hu, by rw [(drawRows_stopped (count_le n) hu).2.2.1]⟩

/-! ### The register list of Fx55 -/

@[simp] theorem regsUpTo_length (x : Reg) (s : State) : (regsUpTo x s).length = regCount x := by
  simp [regsUpTo, regCount]

theorem regsUpTo_getD {x r : Reg} (s : State) (h : r.toNat ≤ x.toNat) : (regsUpTo x s).getD r.toNat 0 = readV r s := by
  simp [regsUpTo, List.getD_eq_getElem?_getD, show r.toNat < x.toNat + 1 by omega]

end Sys2Proof.Machine
end

