-- ==== Sys2Proof/Laws/PerInstr.lean ====
section
/-! SUPPORT. The per-instruction family RowRoundTrip: the decode map reads back the word of each instruction (30_encoding R73). -/

namespace Sys2Proof.Laws.RowRoundTrip

/-- The decode map gives an instruction's word back as the instruction, with every operand as encoded. -/
def Statement (i : Instr) : Prop := decodeRow (encode i) = some i

/-- A row that matches the word of an instruction it builds gives the round trip. -/
theorem of_row {n : Nat} (hn : n < rows.length) {i : Instr} (hm : rows[n].matches (encode i) = true)
    (hb : rows[n].build (encode i) = i) : Statement i := by
  rw [Statement, decodeRow_of_matches hn hm, hb]

theorem cls : Statement .cls := by unfold Statement; decide

theorem ret : Statement .ret := by unfold Statement; decide

theorem jp (nnn : Imm12) : Statement (.jp nnn) :=
  of_row (n := 2) (by decide) (beq_iff_eq.2 (mask_addr 0x1 nnn))
    (congrArg Instr.jp (fieldNnn_addr 0x1 nnn))

theorem call (nnn : Imm12) : Statement (.call nnn) :=
  of_row (n := 3) (by decide) (beq_iff_eq.2 (mask_addr 0x2 nnn))
    (congrArg Instr.call (fieldNnn_addr 0x2 nnn))

theorem seImm (x : Reg) (nn : Byte) : Statement (.seImm x nn) :=
  of_row (n := 4) (by decide) (beq_iff_eq.2 (mask_imm 0x3 x nn))
    (congrArg₂ Instr.seImm (fieldX_imm 0x3 x nn) (fieldNn_imm 0x3 x nn))

theorem sneImm (x : Reg) (nn : Byte) : Statement (.sneImm x nn) :=
  of_row (n := 5) (by decide) (beq_iff_eq.2 (mask_imm 0x4 x nn))
    (congrArg₂ Instr.sneImm (fieldX_imm 0x4 x nn) (fieldNn_imm 0x4 x nn))

theorem seReg (x y : Reg) : Statement (.seReg x y) :=
  of_row (n := 6) (by decide) (beq_iff_eq.2 (mask_regs 0x5 x y 0x0))
    (congrArg₂ Instr.seReg (fieldX_regs 0x5 x y 0x0) (fieldY_regs 0x5 x y 0x0))

theorem ldImm (x : Reg) (nn : Byte) : Statement (.ldImm x nn) :=
  of_row (n := 7) (by decide) (beq_iff_eq.2 (mask_imm 0x6 x nn))
    (congrArg₂ Instr.ldImm (fieldX_imm 0x6 x nn) (fieldNn_imm 0x6 x nn))

theorem addImm (x : Reg) (nn : Byte) : Statement (.addImm x nn) :=
  of_row (n := 8) (by decide) (beq_iff_eq.2 (mask_imm 0x7 x nn))
    (congrArg₂ Instr.addImm (fieldX_imm 0x7 x nn) (fieldNn_imm 0x7 x nn))

theorem ldReg (x y : Reg) : Statement (.ldReg x y) :=
  of_row (n := 9) (by decide) (beq_iff_eq.2 (mask_regs 0x8 x y 0x0))
    (congrArg₂ Instr.ldReg (fieldX_regs 0x8 x y 0x0) (fieldY_regs 0x8 x y 0x0))

theorem orReg (x y : Reg) : Statement (.orReg x y) :=
  of_row (n := 10) (by decide) (beq_iff_eq.2 (mask_regs 0x8 x y 0x1))
    (congrArg₂ Instr.orReg (fieldX_regs 0x8 x y 0x1) (fieldY_regs 0x8 x y 0x1))

theorem andReg (x y : Reg) : Statement (.andReg x y) :=
  of_row (n := 11) (by decide) (beq_iff_eq.2 (mask_regs 0x8 x y 0x2))
    (congrArg₂ Instr.andReg (fieldX_regs 0x8 x y 0x2) (fieldY_regs 0x8 x y 0x2))

theorem xorReg (x y : Reg) : Statement (.xorReg x y) :=
  of_row (n := 12) (by decide) (beq_iff_eq.2 (mask_regs 0x8 x y 0x3))
    (congrArg₂ Instr.xorReg (fieldX_regs 0x8 x y 0x3) (fieldY_regs 0x8 x y 0x3))

theorem addReg (x y : Reg) : Statement (.addReg x y) :=
  of_row (n := 13) (by decide) (beq_iff_eq.2 (mask_regs 0x8 x y 0x4))
    (congrArg₂ Instr.addReg (fieldX_regs 0x8 x y 0x4) (fieldY_regs 0x8 x y 0x4))

theorem sub (x y : Reg) : Statement (.sub x y) :=
  of_row (n := 14) (by decide) (beq_iff_eq.2 (mask_regs 0x8 x y 0x5))
    (congrArg₂ Instr.sub (fieldX_regs 0x8 x y 0x5) (fieldY_regs 0x8 x y 0x5))

theorem shr (x y : Reg) : Statement (.shr x y) :=
  of_row (n := 15) (by decide) (beq_iff_eq.2 (mask_regs 0x8 x y 0x6))
    (congrArg₂ Instr.shr (fieldX_regs 0x8 x y 0x6) (fieldY_regs 0x8 x y 0x6))

theorem subn (x y : Reg) : Statement (.subn x y) :=
  of_row (n := 16) (by decide) (beq_iff_eq.2 (mask_regs 0x8 x y 0x7))
    (congrArg₂ Instr.subn (fieldX_regs 0x8 x y 0x7) (fieldY_regs 0x8 x y 0x7))

theorem shl (x y : Reg) : Statement (.shl x y) :=
  of_row (n := 17) (by decide) (beq_iff_eq.2 (mask_regs 0x8 x y 0xE))
    (congrArg₂ Instr.shl (fieldX_regs 0x8 x y 0xE) (fieldY_regs 0x8 x y 0xE))

theorem sneReg (x y : Reg) : Statement (.sneReg x y) :=
  of_row (n := 18) (by decide) (beq_iff_eq.2 (mask_regs 0x9 x y 0x0))
    (congrArg₂ Instr.sneReg (fieldX_regs 0x9 x y 0x0) (fieldY_regs 0x9 x y 0x0))

theorem ldI (nnn : Imm12) : Statement (.ldI nnn) :=
  of_row (n := 19) (by decide) (beq_iff_eq.2 (mask_addr 0xA nnn))
    (congrArg Instr.ldI (fieldNnn_addr 0xA nnn))

theorem jpV0 (nnn : Imm12) : Statement (.jpV0 nnn) :=
  of_row (n := 20) (by decide) (beq_iff_eq.2 (mask_addr 0xB nnn))
    (congrArg Instr.jpV0 (fieldNnn_addr 0xB nnn))

theorem rnd (x : Reg) (nn : Byte) : Statement (.rnd x nn) :=
  of_row (n := 21) (by decide) (beq_iff_eq.2 (mask_imm 0xC x nn))
    (congrArg₂ Instr.rnd (fieldX_imm 0xC x nn) (fieldNn_imm 0xC x nn))

theorem drw (x y : Reg) (n : Count) : Statement (.drw x y n) :=
  of_row (n := 22) (by decide) (beq_iff_eq.2 (mask_regs_count 0xD x y n))
    (congrArg₂ (fun (p : Reg × Reg) c => Instr.drw p.1 p.2 c)
      (congrArg₂ Prod.mk (fieldX_regs 0xD x y n) (fieldY_regs 0xD x y n)) (fieldN_regs 0xD x y n))

theorem skp (x : Reg) : Statement (.skp x) :=
  of_row (n := 23) (by decide) (beq_iff_eq.2 (mask_sub 0xE x 0x9E))
    (congrArg Instr.skp (fieldX_imm 0xE x 0x9E))

theorem sknp (x : Reg) : Statement (.sknp x) :=
  of_row (n := 24) (by decide) (beq_iff_eq.2 (mask_sub 0xE x 0xA1))
    (congrArg Instr.sknp (fieldX_imm 0xE x 0xA1))

theorem ldVxDt (x : Reg) : Statement (.ldVxDt x) :=
  of_row (n := 25) (by decide) (beq_iff_eq.2 (mask_sub 0xF x 0x7))
    (congrArg Instr.ldVxDt (fieldX_imm 0xF x 0x7))

theorem ldVxK (x : Reg) : Statement (.ldVxK x) :=
  of_row (n := 26) (by decide) (beq_iff_eq.2 (mask_sub 0xF x 0xA))
    (congrArg Instr.ldVxK (fieldX_imm 0xF x 0xA))

theorem ldDtVx (x : Reg) : Statement (.ldDtVx x) :=
  of_row (n := 27) (by decide) (beq_iff_eq.2 (mask_sub 0xF x 0x15))
    (congrArg Instr.ldDtVx (fieldX_imm 0xF x 0x15))

theorem ldStVx (x : Reg) : Statement (.ldStVx x) :=
  of_row (n := 28) (by decide) (beq_iff_eq.2 (mask_sub 0xF x 0x18))
    (congrArg Instr.ldStVx (fieldX_imm 0xF x 0x18))

theorem addI (x : Reg) : Statement (.addI x) :=
  of_row (n := 29) (by decide) (beq_iff_eq.2 (mask_sub 0xF x 0x1E))
    (congrArg Instr.addI (fieldX_imm 0xF x 0x1E))

theorem ldF (x : Reg) : Statement (.ldF x) :=
  of_row (n := 30) (by decide) (beq_iff_eq.2 (mask_sub 0xF x 0x29))
    (congrArg Instr.ldF (fieldX_imm 0xF x 0x29))

theorem ldB (x : Reg) : Statement (.ldB x) :=
  of_row (n := 31) (by decide) (beq_iff_eq.2 (mask_sub 0xF x 0x33))
    (congrArg Instr.ldB (fieldX_imm 0xF x 0x33))

theorem store (x : Reg) : Statement (.store x) :=
  of_row (n := 32) (by decide) (beq_iff_eq.2 (mask_sub 0xF x 0x55))
    (congrArg Instr.store (fieldX_imm 0xF x 0x55))

theorem load (x : Reg) : Statement (.load x) :=
  of_row (n := 33) (by decide) (beq_iff_eq.2 (mask_sub 0xF x 0x65))
    (congrArg Instr.load (fieldX_imm 0xF x 0x65))

end Sys2Proof.Laws.RowRoundTrip
end

