-- ==== Sys2Proof/Tests/Slice0.lean ====
section
/-! SUPPORT. Small tests of the model: ill-formed terms, words written out from 30_encoding R73, and one-step vectors of 95_test_vectors (named in the comments). -/

namespace Sys2Proof.Tests

open Sys2Proof.Machine

/-! ## Ill-formed terms -/

theorem test_wf_or_disabled : (Instr.orReg 1 2).wf Config.default = false := by decide

theorem test_wf_or_enabled : (Instr.orReg 1 2).wf Config.default.allRows = true := by decide

theorem test_wf_stack_limit_zero : Config.wf { stackLimit := some 0 } = false := by decide

theorem test_wf_stack_limit_unbounded : Config.wf { stackLimit := none } = true := by decide

/-! ## Decoding: each constructor's word, written bit by bit from the `encoding` column of the opcode table -/

/-- What a word decodes to with every row enabled. -/
def reads (w : Word) : Option Instr :=
  match decode Config.default.allRows w with
  | .ok i => some i
  | .error _ => none

theorem test_decode_cls : reads 0b0000000011100000 = some .cls := by decide
theorem test_decode_ret : reads 0b0000000011101110 = some .ret := by decide
theorem test_decode_jp : reads 0b0001101010111100 = some (.jp 0xABC) := by decide
theorem test_decode_call : reads 0b0010001000010000 = some (.call 0x210) := by decide
theorem test_decode_seImm : reads 0b0011001101000010 = some (.seImm 0x3 0x42) := by decide
theorem test_decode_sneImm : reads 0b0100001101000010 = some (.sneImm 0x3 0x42) := by decide
theorem test_decode_seReg : reads 0b0101000100100000 = some (.seReg 0x1 0x2) := by decide
theorem test_decode_ldImm : reads 0b0110101010011100 = some (.ldImm 0xA 0x9C) := by decide
theorem test_decode_addImm : reads 0b0111000011111111 = some (.addImm 0x0 0xFF) := by decide
theorem test_decode_ldReg : reads 0b1000000100100000 = some (.ldReg 0x1 0x2) := by decide
theorem test_decode_orReg : reads 0b1000000100100001 = some (.orReg 0x1 0x2) := by decide
theorem test_decode_andReg : reads 0b1000000100100010 = some (.andReg 0x1 0x2) := by decide
theorem test_decode_xorReg : reads 0b1000000100100011 = some (.xorReg 0x1 0x2) := by decide
theorem test_decode_addReg : reads 0b1000000100100100 = some (.addReg 0x1 0x2) := by decide
theorem test_decode_sub : reads 0b1000000100100101 = some (.sub 0x1 0x2) := by decide
theorem test_decode_shr : reads 0b1000000100100110 = some (.shr 0x1 0x2) := by decide
theorem test_decode_subn : reads 0b1000000100100111 = some (.subn 0x1 0x2) := by decide
theorem test_decode_shl : reads 0b1000000100101110 = some (.shl 0x1 0x2) := by decide
theorem test_decode_sneReg : reads 0b1001000100100000 = some (.sneReg 0x1 0x2) := by decide
theorem test_decode_ldI : reads 0b1010010000000000 = some (.ldI 0x400) := by decide
theorem test_decode_jpV0 : reads 0b1011001100000000 = some (.jpV0 0x300) := by decide
theorem test_decode_rnd : reads 0b1100001100001111 = some (.rnd 0x3 0x0F) := by decide
theorem test_decode_drw : reads 0b1101000000010101 = some (.drw 0x0 0x1 0x5) := by decide
theorem test_decode_skp : reads 0b1110010110011110 = some (.skp 0x5) := by decide
theorem test_decode_sknp : reads 0b1110010110100001 = some (.sknp 0x5) := by decide
theorem test_decode_ldVxDt : reads 0b1111001100000111 = some (.ldVxDt 0x3) := by decide
theorem test_decode_ldVxK : reads 0b1111010100001010 = some (.ldVxK 0x5) := by decide
theorem test_decode_ldDtVx : reads 0b1111000000010101 = some (.ldDtVx 0x0) := by decide
theorem test_decode_ldStVx : reads 0b1111000100011000 = some (.ldStVx 0x1) := by decide
theorem test_decode_addI : reads 0b1111001000011110 = some (.addI 0x2) := by decide
theorem test_decode_ldF : reads 0b1111001000101001 = some (.ldF 0x2) := by decide
theorem test_decode_ldB : reads 0b1111101000110011 = some (.ldB 0xA) := by decide
theorem test_decode_store : reads 0b1111001001010101 = some (.store 0x2) := by decide
theorem test_decode_load : reads 0b1111001001100101 = some (.load 0x2) := by decide

/-- DEC7 to DEC9, DEC12 to DEC15: unrecognised words. -/
theorem test_decode_unrecognised :
    [0x5121, 0x9121, 0x8008, 0xE000, 0xF000, 0x0123, 0xFFFF].map reads = List.replicate 7 none := by decide

/-- DEC10: 8xy1 by default. -/
theorem test_decode_or_disabled : decode Config.default 0x8121 = .error (.disabled 0x8121) := by decide

theorem test_decode_table_word : decodeTableWord 16 0xD015 = some (.drw 0 1 5) := by decide

/-! ## One step -/

/-- The reset state with a word where the next step fetches, and registers set. -/
def start (w : Nat) (regs : List (Reg × Byte) := []) : State :=
  regs.foldl (fun s p => writeV p.1 p.2 s) (State.reset.withFetchWord 16 w)

/-- A value read from the state after one step that ends `Ok`. -/
def after {α : Type} (s : State) (f : State → α) : Option α :=
  match step s with
  | .next t => some (f t)
  | .fault _ => none
  | .refused _ => none

/-- The fault of one step, as code and `pc`, and a value read from the state it leaves. -/
def faulted {α : Type} (s : State) (f : State → α) : Option (Nat × Word × α) :=
  match step s with
  | .next _ => none
  | .fault g => some (g.code, g.pc, f g.left)
  | .refused _ => none

/-- The address of an AddressingFault. -/
def badAddress (s : State) : Option Nat :=
  match step s with
  | .fault (.addressing _ _ a _) => some a
  | _ => none

/-- R244: the empty image. -/
theorem test_reset_faults : faulted State.reset (fun t => t.pc) = some (2, 0x200, 0x200) := by decide

/-- DSP1. -/
theorem test_cls : after { start 0x00E0 with fb := Framebuffer.setPixel Framebuffer.blank 3 4 true }
    (fun t => (t.fb.pixel 3 4, t.pc)) = some (false, 0x202) := by decide

/-- CF2. -/
theorem test_ret : after { start 0x00EE with stack := [0x206, 0x410] } (fun t => (t.pc, t.stack)) =
    some (0x410, [0x206]) := by decide

/-- L1.7. -/
theorem test_ret_underflow : faulted (start 0x00EE) (fun t => t.pc) = some (3, 0x200, 0x200) := by decide

/-- CF3. -/
theorem test_jp : after (start 0x1ABC) (fun t => t.pc) = some 0xABC := by decide

/-- CF9, at the last address a fetch can succeed. -/
theorem test_call : after ((jumpTo 0xFFE State.reset).withFetchWord 16 0x2300) (fun t => (t.pc, t.stack)) =
    some (0x300, [0x1000]) := by decide

/-- CF7. -/
theorem test_call_overflow : faulted { start 0x2210 with stack := List.replicate 16 0x202 }
    (fun t => t.stack.length) = some (4, 0x200, 16) := by decide

/-- CF10, CF11. -/
theorem test_seImm : [after (start 0x3342 [(3, 0x42)]) (·.pc), after (start 0x3342 [(3, 0x41)]) (·.pc)] =
    [some 0x204, some 0x202] := by decide

/-- CF12, CF13. -/
theorem test_sneImm : [after (start 0x4342 [(3, 0x42)]) (·.pc), after (start 0x4342) (·.pc)] =
    [some 0x202, some 0x204] := by decide

/-- CF14. -/
theorem test_seReg : after (start 0x5120 [(1, 7), (2, 7)]) (·.pc) = some 0x204 := by decide

/-- CF16, CF17. -/
theorem test_sneReg : [after (start 0x9120 [(1, 7), (2, 8)]) (·.pc), after (start 0x9110) (·.pc)] =
    [some 0x204, some 0x202] := by decide

/-- CF19. -/
theorem test_jpV0 : after (start 0xB500 [(0, 1), (5, 0x80)]) (·.pc) = some 0x501 := by decide

/-- DEC6, both steps. -/
theorem test_jpV0_past_end : (after (start 0xBFFF [(0, 0xFF)]) (·.pc), after (start 0xBFFF [(0, 0xFF)]) badAddress) =
    (some 0x10FE, some (some 0x10FE)) := by decide

/-- DEC5: a fetch at 0xFFF. -/
theorem test_fetch_at_end : badAddress (jumpTo 0xFFF State.reset) = some 0x1000 := by decide

/-- ALU1. -/
theorem test_ldImm : after (start 0x6A9C) (fun t => (readV 0xA t, t.pc)) = some (0x9C, 0x202) := by decide

/-- ALU4. -/
theorem test_addImm : after (start 0x7001 [(0, 0xFF), (VF, 0x33)]) (fun t => (readV 0 t, readV VF t)) =
    some (0x00, 0x33) := by decide

/-- ALU5. -/
theorem test_ldReg : after (start 0x8120 [(2, 0x33)]) (readV 1) = some 0x33 := by decide

/-- DEC11. -/
theorem test_orReg : after (start 0x8121 [(1, 0x0C), (2, 0x0A)]) (readV 1) = some 0x0E := by decide

/-- DEC10. -/
theorem test_orReg_disabled : faulted { start 0x8121 with cfg := Config.default } (·.pc) = some (2, 0x200, 0x200) := by
  decide

/-- ALU6. -/
theorem test_andReg : after (start 0x8122 [(1, 0x0C), (2, 0x0A), (VF, 0x55)]) (fun t => (readV 1 t, readV VF t)) =
    some (0x08, 0x55) := by decide

/-- ALU7. -/
theorem test_xorReg : after (start 0x8123 [(1, 0x0C), (2, 0x0A)]) (readV 1) = some 0x06 := by decide

/-- L1.2. -/
theorem test_addReg : after (start 0x8124 [(1, 0xFF), (2, 0x01)]) (fun t => (readV 1 t, readV VF t, t.pc)) =
    some (0x00, 1, 0x202) := by decide

/-- ALU11. -/
theorem test_addReg_into_VF : after (start 0x8F14 [(VF, 0xFF), (1, 0x03)]) (readV VF) = some 1 := by decide

/-- L1.3. -/
theorem test_sub : after (start 0x8125 [(1, 0x03), (2, 0x05)]) (fun t => (readV 1 t, readV VF t)) = some (0xFE, 0) := by
  decide

/-- ALU13. -/
theorem test_sub_equal : after (start 0x8125 [(1, 5), (2, 5), (VF, 7)]) (fun t => (readV 1 t, readV VF t)) =
    some (0, 0) := by decide

/-- ALU16. -/
theorem test_shr : after (start 0x8126 [(1, 0x05), (2, 0xFF)]) (fun t => (readV 1 t, readV VF t)) = some (0x02, 1) := by
  decide

/-- ALU18, ALU19. -/
theorem test_shr_VF : [VfOrder.flagWins, VfOrder.statementOrder].map (fun o =>
    after { start 0x8F06 [(VF, 3)] with cfg := { vfOrder := o } } (readV VF)) = [some 1, some 0] := by decide

/-- ALU21. -/
theorem test_subn : after (start 0x8127 [(1, 5), (2, 3)]) (fun t => (readV 1 t, readV VF t)) = some (0xFE, 0) := by
  decide

/-- ALU23. -/
theorem test_shl : after (start 0x810E [(1, 0x81)]) (fun t => (readV 1 t, readV VF t)) = some (0x02, 1) := by decide

/-- ALU25, ALU26. -/
theorem test_shl_VF : [VfOrder.flagWins, VfOrder.statementOrder].map (fun o =>
    after { start 0x8F0E [(VF, 0x81)] with cfg := { vfOrder := o } } (readV VF)) = [some 1, some 2] := by decide

/-- ALU28: one value taken, whatever the mask. -/
theorem test_rnd : after (start 0xC300) (fun t => t.prng.drawn) = some 1 := by decide

/-- MEM1. -/
theorem test_ldI : after (start 0xA400) (fun t => (t.I, t.pc)) = some (0x400, 0x202) := by decide

/-- MEM3, MEM4. -/
theorem test_addI : (after { start 0xF01E [(0, 1)] with I := 0xFFF } (·.I),
    badAddress { start 0xF01E [(0, 1)] with I := 0xFFFF }) = (some 0x1000, some 0x10000) := by decide

/-- MEM8. -/
theorem test_ldF : after (start 0xF229 [(2, 0xFF)]) (·.I) = some 1275 := by decide

/-- MEM9. -/
theorem test_ldB : after { start 0xFA33 [(0xA, 0x9C)] with I := 0x400 }
    (fun t => ([0x400, 0x401, 0x402].map t.mem.read, t.I)) = some ([1, 5, 6], 0x400) := by decide

/-- MEM12. -/
theorem test_ldB_fault : faulted { start 0xF033 [(0, 0xFF)] with I := 0xFFE }
    (fun t => ([0xFFE, 0xFFF].map t.mem.read, t.pc)) = some (1, 0x200, [2, 5], 0x200) := by decide

/-- MEM13. -/
theorem test_store : after { start 0xF255 [(0, 1), (1, 2), (2, 3)] with I := 0x500 }
    (fun t => ([0x500, 0x501, 0x502, 0x503].map t.mem.read, t.I)) = some ([1, 2, 3, 0], 0x503) := by decide

/-- MEM16. -/
theorem test_store_fault : faulted { start 0xF155 [(0, 0xAA), (1, 0xBB)] with I := 0xFFF }
    (fun t => (t.mem.read 0xFFF, t.I)) = some (1, 0x200, 0xAA, 0xFFF) := by decide

/-- Fx65 from the font: glyph '0' (R241). -/
theorem test_load : after (start 0xF465) (fun t => ((List.range 6).map fun k => readV (BitVec.ofNat 4 k) t, t.I)) =
    some ([0xF0, 0x90, 0x90, 0x90, 0xF0, 0], 5) := by decide

/-- P6: the load stopped in the middle. -/
theorem test_load_fault : faulted { start 0xF165 [(0, 0xAA), (1, 0xBB)] with I := 0xFFF }
    (fun t => (readV 0 t, readV 1 t, t.I)) = some (1, 0x200, 0, 0xBB, 0xFFF) := by decide

/-- DSP4: both axes wrap. -/
theorem test_drw_wraps : after (start 0xD015 [(0, 0x3E), (1, 0x1E)])
    (fun t => (t.fb.pixel 30 1, t.fb.pixel 30 2, t.fb.pixel 0 62, t.fb.pixel 0 63, t.fb.pixel 2 63, readV VF t)) =
    some (true, false, true, false, true, 0) := by decide

/-- DSP8: the rows before the fault are drawn. -/
theorem test_drw_fault : faulted { start 0xD014 [(VF, 0x55)] with I := 0xFFD, mem := [(0x200, 0xD0), (0x201, 0x14), (0xFFD, 0xFF), (0xFFE, 0xFF), (0xFFF, 0xFF)] }
    (fun t => (t.fb.pixel 2 7, t.fb.pixel 3 0, readV VF t)) = some (1, 0x200, true, false, 0x55) := by decide

/-- TK1, TK2. -/
theorem test_skp : [after { start 0xE59E [(5, 0xA)] with keys := State.reset.keys.set 10 true } (·.pc),
    after (start 0xE59E [(5, 0xA)]) (·.pc)] = [some 0x204, some 0x202] := by decide

/-- TK6. -/
theorem test_sknp_fault : faulted (start 0xE0A1 [(0, 0xFF)]) (·.pc) = some (5, 0x200, 0x200) := by decide

/-- TK3. -/
theorem test_sknp : after (start 0xE5A1 [(5, 0xA)]) (·.pc) = some 0x204 := by decide

/-- TK7. -/
theorem test_ldVxDt : after { start 0xF307 with DT := 0x3C } (readV 3) = some 0x3C := by decide

/-- TK9. -/
theorem test_ldVxK : after { start 0xF50A with keys := (State.reset.keys.set 9 true).set 3 true }
    (fun t => (readV 5 t, t.pc)) = some (3, 0x202) := by decide

/-- TK8. -/
theorem test_ldVxK_waits : after (start 0xF50A) id = some (start 0xF50A) := by decide

/-- TK11. -/
theorem test_ldDtVx : after (start 0xF015 [(0, 7)]) (·.DT) = some 7 := by decide

/-- TK12. -/
theorem test_ldStVx : after (start 0xF118 [(1, 0x1E)]) soundLevel = some 0x1E := by decide

/-! ## Host operations -/

/-- TK13, TK14. -/
theorem test_tick : ((tick { State.reset with ST := 1 }).ST, (tick { State.reset with DT := 0xFF }).DT,
    (tick State.reset).DT) = (0, 0xFE, 0) := by decide

/-- TK15, TK16. -/
theorem test_keys : (keyDown 16 State.reset = .error (.keypadUsage 16)) ∧
    ((perform (.keyDown 4) State.reset).2.keys.toList.getD 4 false = true) := by decide

/-- The codes of R210's table: 1 for an oversized image (the fault of R244), 5 for a key event with a code of 16. -/
theorem test_host_fault_codes : (HostFault.addressing 0x1000).code = 1 ∧
    [keyDown 16 State.reset, keyUp 16 State.reset].map (fun r => match r with | .error f => f.code | .ok _ => 0) = [5, 5] := by
  decide

/-- R244: construction with the empty image and seed 0 is the reset state. -/
theorem test_construct_empty : construct Config.default [] 0 = .ok State.reset := by decide

/-- R241, `FONT_VARIANT = source`: glyph '2' has the bytes of glyph '3'. -/
theorem test_construct_source_font : (construct { font := .source } [0x12, 0x00] 0).toOption.map (fun s =>
    ([10, 11, 12, 13, 14].map s.mem.read, s.mem)) =
    some ([0xF0, 0x10, 0xF0, 0x10, 0xF0], [(13, 0x10), (0x200, 0x12)]) := by decide

/-- FF55 in the last two bytes, with `I` on it. -/
def overwriting : State := { writeV 1 0xE0 ((jumpTo 0xFFE State.reset).withFetchWord 16 0xFF55) with I := 0xFFE }

/-! ## A fault that does not happen again -/

/-- V0 = 0x00 and V1 = 0xE0 stored over the very instruction, FF55 at 0xFFE: after the fault the bytes at `pc` are 00E0,
and the next STEP ends `Ok` (log 10, against R219's "The fault then happens again"). -/
theorem test_fault_not_repeated : (faulted overwriting (fun t => (fetch16 t).toOption),
    faulted overwriting (fun t => after t (·.pc))) = (some (1, 0xFFE, some 0x00E0), some (1, 0xFFE, some 0x1000)) := by
  decide

/-- Every pixel of the sprite is on before the first draw: the first draw reports the erasure and the second none,
although the sprite has 1 bits (log 13, against R105's "if and only if the sprite has at least one 1 bit"). -/
theorem test_second_draw_without_erasure :
    after { start 0xD011 with fb := Framebuffer.setPixel Framebuffer.blank 0 2 true, I := 5 } (fun t => (readV VF t,
      after { jumpTo 0x200 t with V := State.reset.V } (readV VF))) = some (1, some 0) := by decide

/-! ## Witnesses: for each obligation with hypotheses, data that meet all of them together, at the edges of each clause -/

/-- A state with a word at an address, `pc` there, and the index register set. -/
def startAt (pc w index : Nat) (regs : List (Reg × Byte) := []) : State :=
  regs.foldl (fun s p => writeV p.1 p.2 s)
    { ({ State.reset with pc := BitVec.ofNat 16 pc } : State).withFetchWord 16 w with I := BitVec.ofNat 16 index }

theorem witness_DecodeOfEncodedBytes : (Instr.orReg 0xF 0xF).wf Config.default.allRows = true := by decide

theorem witness_EncodeOfDecodedWord : (decode Config.default 0xFF65).toOption = some (.load 0xF) := by decide

theorem witness_NoTwoRowsMatchOneWord :
    rows.map (·.matches 0x8121) = List.replicate 10 false ++ [true] ++ List.replicate 23 false := by decide

/-- Both sides of the edges of each clause. -/
theorem witness_UnrecognisedWordsByFamily :
    [0x00DF, 0x0FFF, 0x5121, 0x8008, 0x800D, 0x800F, 0x912F, 0xE09D, 0xE0A2, 0xF006, 0xFF66, 0xFFFF].map
      (fun w => (decode Config.default w).toOption) = List.replicate 12 none ∧
    ([0x00E0, 0x5120, 0x8007, 0x800E, 0xE0A1, 0xF007, 0xFF65].map
      (fun w => ((decode Config.default w).toOption).isSome)) = List.replicate 7 true ∧
    (decode Config.default 0x8FF1).toOption = none := by decide

theorem witness_StepRunsDecodedInstruction :
    (memRead 0xFFE (startAt 0xFFE 0xFF65 0)).toOption = some 0xFF ∧
    (memRead 0xFFF (startAt 0xFFE 0xFF65 0)).toOption = some 0x65 ∧
    (decode (startAt 0xFFE 0xFF65 0).cfg (wordOfBytes 0xFF 0x65)).toOption = some (.load 0xF) := by decide

theorem witness_FetchIsBigEndianAndBounded :
    (startAt 0xFFE 0 0).pc.toNat < 0xFFF ∧ (startAt 0xFFF 0 0).pc.toNat = 0xFFF ∧
      0x1000 ≤ (startAt 0x1000 0 0).pc.toNat ∧ 0x1000 ≤ (startAt 0xFFFF 0 0).pc.toNat := by decide

theorem witness_UnmatchedWordRaisesUnknownOpcode :
    (fetch16 (startAt 0x200 0x800F 0)).toOption = some 0x800F ∧ ∀ r ∈ rows, r.matches 0x800F = false := by decide

theorem witness_OrIsRecognisedOnlyWhenEnabled :
    (fetch16 (startAt 0x200 0x8FF1 0)).toOption = some (0x8#4 ++ 0xF#4 ++ 0xF#4 ++ 0x1#4) ∧
    (startAt 0x200 0x8FF1 0).cfg.or8xy1 = true ∧
    (fetch16 { startAt 0x200 0x8FF1 0 with cfg := Config.default }).toOption = some (0x8#4 ++ 0xF#4 ++ 0xF#4 ++ 0x1#4) ∧
    Config.default.or8xy1 = false := by decide

theorem witness_FaultLeavesControlState : ∃ f, step (startAt 0x200 0xFF55 0xFFF) = .fault f := ⟨_, rfl⟩

theorem witness_FaultRepeatsWhateverTheHostDoes :
    ∃ f, step (startAt 0x200 0xFF55 0xFFF) = .fault f ∧ fetch16 f.left = fetch16 (startAt 0x200 0xFF55 0xFFF) :=
  ⟨_, rfl, rfl⟩

theorem witness_SelfJumpIsAFixedPoint :
    (fetch16 (startAt 0xFFE 0x1FFE 0)).toOption = some (encode (.jp 0xFFE)) ∧
      (0xFFE : Imm12).toNat = (startAt 0xFFE 0x1FFE 0).pc.toNat := by decide

/-- No key is pressed, whatever the code. -/
theorem no_key_pressed (j : Nat) : keyAt (Vector.replicate 16 false) j = false := by
  show (List.replicate 16 false).getD j false = false
  rw [List.getD_eq_getElem?_getD, List.getElem?_replicate]
  split <;> rfl

theorem witness_KeyWaitStallsWithoutFault :
    (fetch16 (startAt 0xFFE 0xFF0A 0)).toOption = some (encode (.ldVxK 0xF)) ∧
      ∀ j, keyAt (startAt 0xFFE 0xFF0A 0).keys j = false := ⟨by decide, no_key_pressed⟩

/-- The invariant of a state with the default STACK_LIMIT. -/
theorem inv_of {s : State} (h : s.cfg.stackLimit = some 16) (hm : s.mem.wf = true) (hl : s.stack.length ≤ 16)
    (ha : s.stack.all (fun v => v.toNat ≤ 0x1000) = true) (hp : s.pc.toNat ≤ 0x10FE) : Inv s :=
  ⟨hm, fun n hn => by rw [h] at hn; exact Option.some.inj hn ▸ hl, by simpa using ha, hp⟩

/-- A state at a bound of the invariant: a full stack of the greatest return addresses. -/
def fullStack : State := { startAt 0xFFE 0x00EE 0 with stack := List.replicate 16 0x1000 }

theorem witness_StepKeepsInvariant_next : Inv fullStack ∧ (after fullStack (·.pc)).isSome = true :=
  ⟨inv_of (by decide) (by decide) (by decide) (by decide) (by decide), by decide⟩

/-- The other bound: the greatest `pc`. -/
theorem witness_StepKeepsInvariant_fault : Inv (jumpTo 0x10FE State.reset) ∧
    (faulted (jumpTo 0x10FE State.reset) (·.pc)).isSome = true :=
  ⟨inv_of (by decide) (by decide) (by decide) (by decide) (by decide), by decide⟩

theorem witness_SessionKeepsInvariant : Inv fullStack := witness_StepKeepsInvariant_next.1

theorem witness_ConstructionMeetsInvariant : Config.wf { stackLimit := some 1 } = true ∧
    ∃ s, construct { stackLimit := some 1 } (List.replicate 3 0xFF) 7 = .ok s := ⟨by decide, ⟨_, rfl⟩⟩

theorem witness_DrwDrawsTheSprite :
    (0 : Count) = 0 ∧ (startAt 0x200 0xD01F 0xFF1).I.toNat + (0xF : Count).toNat ≤ 0x1000 := by decide

theorem witness_DrwFaultKeepsTheRowsDrawn :
    0x1000 < (startAt 0x200 0xD01F 0xFF2).I.toNat + (0xF : Count).toNat ∧ (0xF : Count) ≠ 0 := by decide

theorem witness_DrawingTwiceRestoresTheScreen :
    ∃ t, exec (.drw 0 1 5) (startAt 0x200 0xD015 0 [(0, 0x3E), (1, 0x1E)]) = .next t ∧
      readV 0 t = readV 0 (startAt 0x200 0xD015 0 [(0, 0x3E), (1, 0x1E)]) ∧
      readV 1 t = readV 1 (startAt 0x200 0xD015 0 [(0, 0x3E), (1, 0x1E)]) := ⟨_, rfl, by decide, by decide⟩

theorem witness_RetPopsTheReturnAddress :
    ({ State.reset with stack := [0x1000] } : State).stack = [] ++ [0x1000] ∧ State.reset.stack = [] := by decide

theorem witness_CallPushesTheReturnAddress :
    ({ State.reset with stack := List.replicate 15 0x202 } : State).cfg.stackLimit ≠ some 15 ∧
    ({ State.reset with stack := List.replicate 16 0x202 } : State).cfg.stackLimit =
      some (List.replicate 16 (0x202 : Word)).length := by decide

theorem witness_OrWhenEnabled : (startAt 0x200 0x8121 0).cfg.or8xy1 = true ∧ State.reset.cfg.or8xy1 = false := by
  decide

/-- The register clauses of AddWithCarry, SubtractWithFlag, SubtractReversedWithFlag, and of the two shifts, whose
two clauses for VF are told apart by the parameter. -/
theorem witness_flag_setting : (0xE : Reg) ≠ VF ∧ (0xF : Reg) = VF ∧ State.reset.cfg.vfOrder = .flagWins ∧
    ({ State.reset with cfg := { vfOrder := .statementOrder } } : State).cfg.vfOrder = .statementOrder := by decide

theorem witness_RandomByteIsMasked : (0x7F : Byte).getLsbD 7 = false := by decide

theorem witness_IndexAddIsUnmasked :
    (startAt 0x200 0xFF1E 0xFF00 [(0xF, 0xFF)]).I.toNat + (readV 0xF (startAt 0x200 0xFF1E 0xFF00 [(0xF, 0xFF)])).toNat ≤
      0xFFFF ∧
    0xFFFF <
      (startAt 0x200 0xFF1E 0xFF01 [(0xF, 0xFF)]).I.toNat + (readV 0xF (startAt 0x200 0xFF1E 0xFF01 [(0xF, 0xFF)])).toNat := by
  decide

theorem witness_BcdStoresThreeDigits :
    (startAt 0x200 0xF033 0xFFD).mem.wf = true ∧ (startAt 0x200 0xF033 0xFFD).I.toNat + 3 ≤ 0x1000 := by decide

theorem witness_BcdFaultKeepsTheDigitsStored :
    (startAt 0x200 0xF033 0xFFE).mem.wf = true ∧ 0x1000 < (startAt 0x200 0xF033 0xFFE).I.toNat + 3 ∧
      1 < goodCount (startAt 0x200 0xF033 0xFFE).I.toNat := by decide

/-- Fx55 and Fx65 of all sixteen registers into, and from, the last sixteen bytes. -/
theorem witness_StoreDumpsTheRegisters_LoadFillsTheRegisters :
    (startAt 0x200 0xFF55 0xFF0).mem.wf = true ∧
      (startAt 0x200 0xFF55 0xFF0).I.toNat + ((0xF : Reg).toNat + 1) ≤ 0x1000 := by decide

/-- One register of the sixteen is past the end. -/
theorem witness_StoreFaultKeepsTheBytesStored_LoadFaultKeepsTheRegistersLoaded :
    (startAt 0x200 0xFF55 0xFF1).mem.wf = true ∧
      0x1000 < (startAt 0x200 0xFF55 0xFF1).I.toNat + ((0xF : Reg).toNat + 1) ∧
      (0xE : Reg).toNat < goodCount (startAt 0x200 0xFF55 0xFF1).I.toNat := by decide

theorem witness_StoreThenLoadRoundTrips :
    (startAt 0x200 0xFF55 0xFF0).mem.wf = true ∧ ∃ t, exec (.store 0xF) (startAt 0x200 0xFF55 0xFF0) = .next t :=
  ⟨by decide, ⟨_, rfl⟩⟩

theorem witness_StoresAreVisibleToFetch :
    (startAt 0x200 0xFF55 0xFF0).mem.wf = true ∧
      (∃ t, exec (.store 0xF) (startAt 0x200 0xFF55 0xFF0) = .next t) ∧
      (0xF : Reg).toNat = (0xE : Reg).toNat + 1 ∧ (0xF : Reg).toNat ≤ (0xF : Reg).toNat :=
  ⟨by decide, ⟨_, rfl⟩, by decide, by decide⟩

theorem witness_PlacedWordRunsNext :
    (jumpTo 0xFFE State.reset).mem.wf = true ∧ (jumpTo 0xFFE State.reset).pc.toNat + 1 < 0x1000 ∧
      decodeTableWord 16 0x8FF1 = some (.orReg 0xF 0xF) := by decide

theorem witness_KeySkips :
    (readV 5 (startAt 0x200 0xE59E 0 [(5, 15)])).toNat < 16 ∧ 16 ≤ (readV 5 (startAt 0x200 0xE59E 0 [(5, 16)])).toNat := by
  decide

theorem witness_KeyWaitTakesTheLowestKey :
    keyAt (State.reset.keys.set 15 true) 15 = true ∧ (∀ j < 15, keyAt (State.reset.keys.set 15 true) j = false) ∧
      (∀ k < 16, keyAt State.reset.keys k = false) := by decide

theorem witness_WritersOfIndexAndStack :
    (∃ t, exec (.store 0xF) State.reset = .next t ∧ t.I ≠ State.reset.I) ∧
    (∃ t, exec (.call 0) State.reset = .next t ∧ State.reset.stack.length < t.stack.length) ∧
    (∃ t, exec .ret { State.reset with stack := [0] } = .next t ∧
      t.stack.length < ({ State.reset with stack := [0] } : State).stack.length) :=
  ⟨⟨_, rfl, by decide⟩, ⟨_, rfl, by decide⟩, ⟨_, rfl, by decide⟩⟩

theorem witness_WritersOfDevicesAndMemory :
    (∃ t, exec (.ldDtVx 0) (writeV 0 1 State.reset) = .next t ∧ t.DT ≠ (writeV 0 1 State.reset).DT) ∧
    (∃ t, exec (.ldStVx 0) (writeV 0 1 State.reset) = .next t ∧ t.ST ≠ (writeV 0 1 State.reset).ST) ∧
    (∃ t, exec (.drw 0 0 1) State.reset = .next t ∧ t.fb ≠ State.reset.fb) ∧
    (∃ t, exec (.rnd 0 0) State.reset = .next t ∧ t.prng ≠ State.reset.prng) ∧
    (∃ t, exec (.ldB 0) State.reset = .next t ∧ t.mem ≠ State.reset.mem) :=
  ⟨⟨_, rfl, by decide⟩, ⟨_, rfl, by decide⟩, ⟨_, rfl, by decide⟩, ⟨_, rfl, by decide⟩, ⟨_, rfl, by decide⟩⟩

theorem witness_WritersOfVF :
    ∃ t, exec (.load 0xF) State.reset = .next t ∧ readV VF t ≠ readV VF State.reset := ⟨_, rfl, by decide⟩

theorem witness_SoundTimerIsNeverRead : (∃ t, step (startAt 0x200 0xFF18 0) = .next t) ∧
    ∃ f, step (startAt 0x200 0x00EE 0) = .fault f := ⟨⟨_, rfl⟩, ⟨_, rfl⟩⟩

/-- The greatest image that fits, the least that does not, and the empty one. -/
theorem witness_ConstructionLeavesResetValues_OversizedImageIsRefused :
    (List.replicate 3584 (0 : Byte)).length ≤ 3584 ∧ 3584 < (List.replicate 3585 (0 : Byte)).length ∧
      ∃ s, construct Config.default [] 0 = .ok s :=
  ⟨le_of_eq List.length_replicate, by rw [List.length_replicate]; omega, ⟨_, rfl⟩⟩

theorem witness_KeyEventsChangeOneKey : 15 < 16 ∧ 16 ≤ 16 := by decide

end Sys2Proof.Tests
end

/-! PROOFS. The family 10_state: what a completed instruction writes and what it leaves (R11, R22 to R33), the
invariant of a STEP, and the sound timer that nothing reads (R29). -/

namespace Sys2Proof.Machine

/-! ### What a completed instruction writes -/

/-- `s` with the pieces that `i` writes as `t` holds them, every other piece as `s` holds it (00_scope R11): what a
completed instruction can change, read off once for the whole instruction set. -/
def writtenBy (i : Instr) (s t : State) : State :=
  match i with
  | .cls => advance { s with fb := t.fb }
  | .ret => jumpTo t.pc { s with stack := s.stack.dropLast }
  | .call _ => jumpTo t.pc { s with stack := s.stack ++ [s.pc + 2] }
  | .jp _ | .jpV0 _ | .seImm _ _ | .sneImm _ _ | .seReg _ _ | .sneReg _ _ | .skp _ | .sknp _ => jumpTo t.pc s
  | .ldImm x _ | .addImm x _ | .ldReg x _ | .orReg x _ | .andReg x _ | .xorReg x _ | .ldVxDt x =>
    advance (writeV x (readV x t) s)
  | .addReg _ _ | .sub _ _ | .shr _ _ | .subn _ _ | .shl _ _ => advance { s with V := t.V }
  | .ldI _ | .addI _ | .ldF _ => advance { s with I := t.I }
  | .rnd x _ => advance (writeV x (readV x t) { s with prng := t.prng })
  | .drw _ _ _ => advance { s with V := t.V, fb := t.fb }
  | .ldVxK x => writeV x (readV x t) (jumpTo t.pc s)
  | .ldDtVx _ => advance { s with DT := t.DT }
  | .ldStVx _ => advance { s with ST := t.ST }
  | .ldB _ => advance { s with mem := t.mem }
  | .store _ => advance { s with mem := t.mem, I := t.I }
  | .load _ => advance { s with V := t.V, I := t.I }

/-- Writing a register's own value changes nothing. -/
@[simp] theorem writeV_readV (x : Reg) (s : State) : writeV x (readV x s) s = s := by
  simp [writeV, readV]

/-- A register write that a register sees is a write to it. -/
theorem eq_of_readV_writeV_ne {r x : Reg} {b : Byte} {s : State} (h : readV r (writeV x b s) ≠ readV r s) : x = r := by
  by_contra hne
  exact h (readV_writeV_ne (Ne.symm hne) b s)

/-- A shift writes registers alone, under both orders of R141. -/
theorem writeShift_eq (x : Reg) (f : Byte → Byte) (flag : Byte) (s : State) :
    writeShift x f flag s = { s with V := (writeShift x f flag s).V } := by
  unfold writeShift
  cases s.cfg.vfOrder <;> rfl

/-- The frame rule R11 for every instruction that completes. -/
theorem exec_next_writtenBy {i : Instr} {s t : State} (h : exec i s = .next t) : t = writtenBy i s t := by
  cases i with
  | ret =>
    obtain ⟨rest, v, hstack, rfl⟩ := execRet_next.1 h
    simp [writtenBy, jumpTo, hstack]
  | call nnn =>
    obtain ⟨-, rfl⟩ := execCall_next.1 h
    rfl
  | orReg x y =>
    obtain ⟨-, rfl⟩ := execOrReg_next.1 h
    simp [writtenBy]
  | shr | shl =>
    obtain rfl := Host.Outcome.next.inj h
    exact congrArg advance (writeShift_eq _ _ _ _)
  | addI x =>
    obtain ⟨-, rfl⟩ := execAddI_next.1 h
    rfl
  | drw x y n =>
    obtain ⟨a, u, hu, rfl⟩ := execDrw_next.1 h
    obtain ⟨-, hu, -⟩ := drawRows_done (count_le n) hu
    rw [hu]; rfl
  | skp x =>
    obtain ⟨-, rfl⟩ := execSkp_next.1 h
    rfl
  | sknp x =>
    obtain ⟨-, rfl⟩ := execSknp_next.1 h
    rfl
  | ldVxK x =>
    obtain ⟨-, rfl⟩ | ⟨k, -, rfl⟩ := execLdVxK_next.1 h
    · exact (writeV_readV x _).symm
    · simp only [writtenBy, readV_advance, readV_writeV_same]; rfl
  | ldB x =>
    obtain ⟨u, hu, rfl⟩ := execLdB_next.1 h
    obtain ⟨-, hu, -⟩ := storeBytes_done hu
    rw [hu]; rfl
  | store x =>
    obtain ⟨u, hu, rfl⟩ := execStore_next.1 h
    obtain ⟨-, hu, -⟩ := storeBytes_done hu
    rw [hu]; rfl
  | load x =>
    obtain ⟨u, hu, rfl⟩ := execLoad_next.1 h
    obtain ⟨-, hu, -⟩ := loadRegs_done (regCount_le x) hu
    rw [hu]; rfl
  | ldImm | addImm | ldReg | andReg | xorReg | ldVxDt =>
    obtain rfl := Host.Outcome.next.inj h
    simp [writtenBy]
  | rnd =>
    obtain rfl := Host.Outcome.next.inj h
    simp only [writtenBy, readV_advance, readV_writeV_same]; rfl
  | cls | jp | jpV0 | seImm | sneImm | seReg | sneReg | addReg | sub | subn | ldI | ldF | ldDtVx | ldStVx =>
    obtain rfl := Host.Outcome.next.inj h
    rfl

/-- Fx65 loads VF only when it loads all sixteen registers (R175). -/
theorem execLoad_readV_VF {x : Reg} {s t : State} (h : execLoad x s = .next t) (hx : x ≠ VF) :
    readV VF t = readV VF s := by
  obtain ⟨u, hu, rfl⟩ := execLoad_next.1 h
  obtain ⟨-, -, hV⟩ := loadRegs_done (regCount_le x) hu
  have hlt : regCount x ≤ VF.toNat := by
    have := BitVec.toNat_ne.1 hx
    have := x.isLt
    simp only [regCount, BitVec.toNat_ofNat] at *
    omega
  rw [readV_advance, readV_advanceIndex, hV, if_neg (by omega)]

/-- Settles O52, from the frame of every completed instruction. -/
theorem writersOfIndexAndStack : Obligations.WritersOfIndexAndStack := by
  intro i s t h
  rw [exec_next_writtenBy h]
  cases i with
  | ret =>
    refine ⟨?_, ?_, fun _ => rfl, (List.dropLast_sublist s.stack).eq_of_length⟩ <;> simp [writtenBy]
  | _ => simp [writtenBy]

/-- Settles O53, from the frame of every completed instruction. -/
theorem writersOfDevicesAndMemory : Obligations.WritersOfDevicesAndMemory := by
  intro i s t h
  rw [exec_next_writtenBy h]
  cases i <;> simp [writtenBy]

/-- Settles O54: the frame of every completed instruction, taken by what it writes: no register, its destination, a
flag, or, for Fx65, the registers its loop reaches. -/
theorem writersOfVF : Obligations.WritersOfVF := by
  intro i s t h hVF
  have ht := exec_next_writtenBy h
  cases i with
  | load x =>
    have hx : x = VF := not_imp_comm.1 (execLoad_readV_VF h) hVF
    simp [hx]
  | ldImm x _ | addImm x _ | ldReg x _ | orReg x _ | andReg x _ | xorReg x _ | rnd x _ | ldVxDt x | ldVxK x =>
    rw [ht] at hVF
    have hx : x = VF := eq_of_readV_writeV_ne hVF
    simp [hx]
  | addReg | sub | shr | subn | shl | drw => simp
  | cls | ret | jp | call | seImm | sneImm | seReg | sneReg | ldI | jpV0 | skp | sknp | ldDtVx | ldStVx | addI | ldF
  | ldB | store =>
    rw [ht] at hVF
    exact absurd rfl hVF

/-! ### The invariant of a STEP -/

theorem zextImm_toNat_le (nnn : Imm12) : (zextImm nnn).toNat ≤ 0xFFF := by
  have := nnn.isLt
  rw [zextImm, BitVec.toNat_setWidth_of_le (by decide)]
  omega

/-- `V0 + nnn` does not wrap: at most `0xFF + 0xFFF` (R127). -/
theorem indexedTarget_toNat_le (v0 : Byte) (nnn : Imm12) : (indexedTarget v0 nnn).toNat ≤ 0x10FE := by
  have := v0.isLt
  have := nnn.isLt
  rw [indexedTarget, BitVec.toNat_ofNat]
  omega

theorem skipIf_pc_cases (c : Bool) (s : State) : (skipIf c s).pc = s.pc + 2 ∨ (skipIf c s).pc = s.pc + 4 := by
  cases c
  · exact .inl rfl
  · exact .inr rfl

/-- Where a completed instruction continues (R24): it stays, goes on, skips, returns, or jumps. -/
theorem exec_next_pc {i : Instr} {s t : State} (h : exec i s = .next t) :
    t.pc = s.pc ∨ t.pc = s.pc + 2 ∨ t.pc = s.pc + 4 ∨ t.pc ∈ s.stack ∨ t.pc.toNat ≤ 0x10FE := by
  cases i with
  | ret =>
    obtain ⟨rest, v, hstack, rfl⟩ := execRet_next.1 h
    simp [hstack]
  | jp nnn =>
    obtain rfl := Host.Outcome.next.inj h
    have := zextImm_toNat_le nnn
    simp only [jumpTo_pc]; omega
  | call nnn =>
    obtain ⟨-, rfl⟩ := execCall_next.1 h
    have := zextImm_toNat_le nnn
    simp only [jumpTo_pc]; omega
  | jpV0 nnn =>
    obtain rfl := Host.Outcome.next.inj h
    have := indexedTarget_toNat_le (readV 0 s) nnn
    simp only [jumpTo_pc, this, or_true]
  | seImm | sneImm | seReg | sneReg =>
    obtain rfl := Host.Outcome.next.inj h
    exact .inr ((skipIf_pc_cases _ s).imp_right .inl)
  | skp x =>
    obtain ⟨-, rfl⟩ := execSkp_next.1 h
    exact .inr ((skipIf_pc_cases _ s).imp_right .inl)
  | sknp x =>
    obtain ⟨-, rfl⟩ := execSknp_next.1 h
    exact .inr ((skipIf_pc_cases _ s).imp_right .inl)
  | ldVxK x =>
    obtain ⟨-, rfl⟩ | ⟨k, -, rfl⟩ := execLdVxK_next.1 h
    · exact .inl rfl
    · exact .inr (.inl rfl)
  | _ => exact .inr (.inl (congrArg State.pc (exec_next_writtenBy h) :))

/-- What a completed instruction leaves of the stack (R27): all of it, all but the newest entry, or one entry more
where the limit leaves room. -/
theorem exec_next_stack {i : Instr} {s t : State} (h : exec i s = .next t) :
    t.stack = s.stack ∨ t.stack = s.stack.dropLast ∨
      (t.stack = s.stack ++ [s.pc + 2] ∧ s.cfg.stackLimit ≠ some s.stack.length) := by
  cases i with
  | ret => exact .inr (.inl (congrArg State.stack (exec_next_writtenBy h) :))
  | call nnn => exact .inr (.inr ⟨(congrArg State.stack (exec_next_writtenBy h) :), (execCall_next.1 h).1⟩)
  | _ => exact .inl (congrArg State.stack (exec_next_writtenBy h) :)

/-- A completed instruction keeps the canonical form of memory. -/
theorem exec_next_mem_wf {i : Instr} {s t : State} (h : exec i s = .next t) (hwf : s.mem.wf = true) :
    t.mem.wf = true := by
  cases i with
  | ldB x =>
    obtain ⟨u, hu, rfl⟩ := execLdB_next.1 h
    obtain ⟨-, -, hmem⟩ := storeBytes_done hu
    exact (hmem hwf).1
  | store x =>
    obtain ⟨u, hu, rfl⟩ := execStore_next.1 h
    obtain ⟨-, -, hmem⟩ := storeBytes_done hu
    exact (hmem hwf).1
  | _ => rw [exec_next_writtenBy h]; exact hwf

/-- A fetched instruction that completes keeps the invariant. -/
theorem Inv.exec_next {i : Instr} {s t : State} (hs : Inv s) (hpc : s.pc.toNat + 1 < memSize)
    (h : exec i s = .next t) : Inv t := by
  obtain ⟨-, -, -, -, -, -, hcfg⟩ := writersOfDevicesAndMemory i s t h
  have hret : (s.pc + 2).toNat ≤ 0x1000 := by simp only [memSize] at hpc; bv_omega
  constructor
  case mem_wf => exact exec_next_mem_wf h hs.mem_wf
  case stack_le =>
    intro n hn
    rw [hcfg] at hn
    have hle := hs.stack_le n hn
    rcases exec_next_stack h with hst | hst | ⟨hst, hroom⟩
    · rwa [hst]
    · rw [hst, List.length_dropLast]; omega
    · have : s.stack.length ≠ n := fun he => hroom (he ▸ hn)
      rw [hst, List.length_append, List.length_singleton]; omega
  case stack_addr =>
    intro v hv
    rcases exec_next_stack h with hst | hst | ⟨hst, -⟩ <;> rw [hst] at hv
    · exact hs.stack_addr v hv
    · exact hs.stack_addr v (List.mem_of_mem_dropLast hv)
    · rcases List.mem_append.1 hv with hv | hv
      · exact hs.stack_addr v hv
      · rwa [List.mem_singleton.1 hv]
  case pc_le =>
    rcases exec_next_pc h with hp | hp | hp | hp | hp
    · rw [hp]; exact hs.pc_le
    · rw [hp]; omega
    · rw [hp]; simp only [memSize] at hpc; bv_omega
    · exact (hs.stack_addr _ hp).trans (by decide)
    · exact hp

/-- What a fault of the execute phase leaves (R217): registers, screen and memory as the instruction's earlier writes
made them, memory still in its canonical form, and all else as it was. -/
theorem exec_fault_left {i : Instr} {s : State} {f : Fault} (h : exec i s = .fault f) :
    f.left = { s with V := f.left.V, fb := f.left.fb, mem := f.left.mem } ∧
      (s.mem.wf = true → f.left.mem.wf = true) := by
  cases i with
  | ret => obtain ⟨-, rfl⟩ := execRet_fault.1 h; exact ⟨rfl, id⟩
  | call nnn => obtain ⟨-, rfl⟩ := execCall_fault.1 h; exact ⟨rfl, id⟩
  | orReg x y => obtain ⟨-, rfl⟩ := execOrReg_fault.1 h; exact ⟨rfl, id⟩
  | skp x => obtain ⟨-, rfl⟩ := execSkp_fault.1 h; exact ⟨rfl, id⟩
  | sknp x => obtain ⟨-, rfl⟩ := execSknp_fault.1 h; exact ⟨rfl, id⟩
  | addI x => obtain ⟨-, rfl⟩ := execAddI_fault.1 h; exact ⟨rfl, id⟩
  | ldVxK x =>
    simp only [exec, execLdVxK] at h
    split at h <;> nomatch h
  | drw x y n =>
    obtain ⟨e, u, hu, rfl⟩ := execDrw_fault h
    obtain ⟨-, -, hu, -⟩ := drawRows_stopped (count_le n) hu
    rw [hu]; exact ⟨rfl, id⟩
  | ldB x =>
    obtain ⟨e, u, hu, rfl⟩ := execLdB_fault h
    obtain ⟨-, -, hu, hmem⟩ := storeBytes_stopped hu
    refine ⟨?_, fun hwf => (hmem hwf).1⟩
    rw [hu]; rfl
  | store x =>
    obtain ⟨e, u, hu, rfl⟩ := execStore_fault h
    obtain ⟨-, -, hu, hmem⟩ := storeBytes_stopped hu
    refine ⟨?_, fun hwf => (hmem hwf).1⟩
    rw [hu]; rfl
  | load x =>
    obtain ⟨e, u, hu, rfl⟩ := execLoad_fault h
    obtain ⟨-, -, hu, -⟩ := loadRegs_stopped (regCount_le x) hu
    rw [hu]; exact ⟨rfl, id⟩
  | _ =>
    have hnext : Host.Outcome.next _ = .fault f := h
    nomatch hnext

/-- A fault of the execute phase leaves a state that meets the invariant. -/
theorem Inv.exec_fault {i : Instr} {s : State} {f : Fault} (hs : Inv s) (h : exec i s = .fault f) : Inv f.left := by
  obtain ⟨hleft, hmem⟩ := exec_fault_left h
  have hcfg : f.left.cfg = s.cfg := (congrArg State.cfg hleft :)
  have hstack : f.left.stack = s.stack := (congrArg State.stack hleft :)
  have hpc : f.left.pc = s.pc := (congrArg State.pc hleft :)
  exact ⟨hmem hs.mem_wf, by rw [hcfg, hstack]; exact hs.stack_le, by rw [hstack]; exact hs.stack_addr,
    by rw [hpc]; exact hs.pc_le⟩

/-- Settles O16: a STEP that completes fetched below 0xFFF, so every way an instruction ends keeps the bounds; a fault
leaves `pc` and the stack alone. -/
theorem stepKeepsInvariant : Obligations.StepKeepsInvariant := by
  intro s hs
  constructor
  · intro t h
    obtain ⟨w, i, hf, -, he⟩ := step_next h
    exact hs.exec_next (fetch16_ok.1 hf).1 he
  · intro f h
    obtain ⟨e, -, rfl⟩ | ⟨w, e, -, -, rfl⟩ | ⟨w, i, -, -, he⟩ := step_fault h
    · exact hs
    · exact hs
    · exact hs.exec_fault he

/-! ### The sound timer -/

/-- The state with another sound timer. -/
def withSound (a : Byte) (s : State) : State := { s with ST := a }

/-- A run of accesses with another sound timer in the state it ends in. -/
def Run.withSound {α : Type} (a : Byte) : Run α → Run α
  | .done x s => .done x (Machine.withSound a s)
  | .stopped addr s => .stopped addr (Machine.withSound a s)

/-- What a STEP answers, with another sound timer in the state it leaves. -/
def resultWithSound (a : Byte) : Result → Result
  | .next t => .next (withSound a t)
  | .fault f => .fault (f.withLeft (withSound a f.left))
  | .refused r => .refused r

theorem storeBytes_withSound (a : Byte) (base : Nat) (bs : List Byte) (s : State) :
    storeBytes base bs (withSound a s) = (storeBytes base bs s).withSound a := by
  induction bs generalizing base s with
  | nil => rfl
  | cons b bs ih =>
    by_cases hb : memSize ≤ base
    · simp [storeBytes, memWrite, hb, Run.withSound]
    · simp only [storeBytes, memWrite, hb, if_false]
      exact ih (base + 1) { s with mem := s.mem.write base b }

theorem loadRegs_withSound (a : Byte) (base k n : Nat) (s : State) :
    loadRegs base k n (withSound a s) = (loadRegs base k n s).withSound a := by
  induction n generalizing base k s with
  | zero => rfl
  | succ n ih =>
    by_cases hb : memSize ≤ base
    · simp [loadRegs, memRead, hb, Run.withSound]
    · simp only [loadRegs, memRead, hb, if_false]
      exact ih (base + 1) (k + 1) (writeV (BitVec.ofNat 4 k) (s.mem.read base) s)

theorem drawRows_withSound (a : Byte) (base cx cy r n : Nat) (any : Bool) (s : State) :
    drawRows base cx cy r n any (withSound a s) = (drawRows base cx cy r n any s).withSound a := by
  induction n generalizing r any s with
  | zero => rfl
  | succ n ih =>
    by_cases hb : memSize ≤ base + r
    · simp [drawRows, memRead, hb, Run.withSound]
    · simp only [drawRows, memRead, hb, if_false]
      exact ih (r + 1) _ { s with fb := (drawRow (s.mem.read (base + r)) cx (cy + r) s.fb).1 }

/-- The end of a run of accesses reads no sound timer when what follows the run reads none. -/
theorem conclude_withSound {α : Type} {a : Byte} {r r' : Run α} (hr : r' = r.withSound a) {i : Instr}
    {k : α → State → State} (hk : ∀ x t, k x (withSound a t) = withSound a (k x t)) :
    r'.conclude i k = resultWithSound a (r.conclude i k) := by
  subst hr
  cases r with
  | done x t => exact congrArg Host.Outcome.next (hk x t)
  | stopped addr t => rfl

theorem writeShift_withSound (a : Byte) (x : Reg) (f : Byte → Byte) (flag : Byte) (s : State) :
    writeShift x f flag (withSound a s) = withSound a (writeShift x f flag s) := by
  unfold writeShift
  cases h : s.cfg.vfOrder <;> simp only [withSound, h] <;> rfl

/-- Every instruction but Fx18 carries the sound timer through unread, to the end or to its fault. -/
theorem exec_withSound (a : Byte) {i : Instr} (hi : ∀ x, i ≠ .ldStVx x) (s : State) :
    exec i (withSound a s) = resultWithSound a (exec i s) := by
  cases i with
  | ldStVx x => exact absurd rfl (hi x)
  | ret => simp only [exec, execRet, pop, withSound]; cases s.stack.getLast? <;> rfl
  | call nnn =>
    simp only [exec, execCall, push, withSound]
    by_cases hfull : s.cfg.stackLimit = some s.stack.length <;> simp only [hfull, if_true, if_false] <;> rfl
  | orReg x y =>
    simp only [exec, execOrReg, apply_ite (resultWithSound a)]
    rfl
  | shr x y | shl x y => exact congrArg (fun u => Host.Outcome.next (advance u)) (writeShift_withSound a x _ _ s)
  | addI x =>
    simp only [exec, execAddI, apply_ite (resultWithSound a)]
    rfl
  | skp x =>
    simp only [exec, execSkp]
    rw [show keyPressed (readV x (withSound a s)) (withSound a s) = keyPressed (readV x s) s from rfl]
    cases keyPressed (readV x s) s <;> rfl
  | sknp x =>
    simp only [exec, execSknp]
    rw [show keyPressed (readV x (withSound a s)) (withSound a s) = keyPressed (readV x s) s from rfl]
    cases keyPressed (readV x s) s <;> rfl
  | ldVxK x =>
    simp only [exec, execLdVxK]
    rw [show firstPressed (withSound a s) = firstPressed s from rfl]
    cases firstPressed s <;> rfl
  | drw => exact conclude_withSound (drawRows_withSound a _ _ _ _ _ _ s) fun _ _ => rfl
  | ldB | store => exact conclude_withSound (storeBytes_withSound a _ _ s) fun _ _ => rfl
  | load => exact conclude_withSound (loadRegs_withSound a _ _ _ s) fun _ _ => rfl
  | _ => rfl

/-- A fetched and decoded instruction is what a STEP executes. -/
theorem step_eq_exec {s : State} {w : Word} {i : Instr} (hf : fetch16 s = .ok w) (hd : decode s.cfg w = .ok i) :
    step s = exec i s := by
  simp only [step, hf, hd]

/-- A STEP that does not run Fx18 carries the sound timer through unread: neither fetch nor decode reads it. -/
theorem step_withSound (a : Byte) {s : State}
    (hs : ¬ ∃ w x, fetch16 s = .ok w ∧ decode s.cfg w = .ok (.ldStVx x)) :
    step (withSound a s) = resultWithSound a (step s) := by
  have hfetch : fetch16 (withSound a s) = fetch16 s := rfl
  have hcfg : (withSound a s).cfg = s.cfg := rfl
  unfold step
  rw [hfetch, hcfg]
  cases hf : fetch16 s with
  | error e => rfl
  | ok w =>
    cases hd : decode s.cfg w with
    | error e => simp only [hd]; rfl
    | ok i =>
      simp only [hd]
      exact exec_withSound a (fun x hi => hs ⟨w, x, hf, hi ▸ hd⟩) s

/-- Settles O55: Fx18 overwrites the sound timer with a register, and every other STEP carries it through. -/
theorem soundTimerIsNeverRead : Obligations.SoundTimerIsNeverRead := by
  intro s a
  by_cases hs : ∃ w x, fetch16 s = .ok w ∧ decode s.cfg w = .ok (.ldStVx x)
  · obtain ⟨w, x, hf, hd⟩ := hs
    have hstep : step s = .next (advance { s with ST := readV x s }) := step_eq_exec hf hd
    have hsame : step (withSound a s) = step s := (step_eq_exec (s := withSound a s) hf hd).trans hstep.symm
    exact ⟨fun t h => ⟨t, hsame.trans h, rfl, .inl rfl⟩, fun f h => nomatch hstep.symm.trans h⟩
  · have hstep := step_withSound a hs
    constructor
    · intro t h
      obtain ⟨w, i, hf, hd, he⟩ := step_next h
      obtain ⟨-, hwrites, -⟩ := writersOfDevicesAndMemory i s t he
      have hST : t.ST = s.ST := not_imp_comm.1 hwrites fun ⟨x, hi⟩ => hs ⟨w, x, hf, hi ▸ hd⟩
      exact ⟨withSound a t, hstep.trans (congrArg _ h), rfl, .inr ⟨hST, rfl⟩⟩
    · exact fun f h => hstep.trans (congrArg _ h)

end Sys2Proof.Machine

/-! PROOFS. The family 20_memory: the fetch, its bounds and its faults (R56), and that it reads what
Fx55 stored (R62). -/

namespace Sys2Proof.Machine

/-! ### The fetch -/

/-- The high byte of a word counts 256 times its value: the bytes do not overlap. -/
theorem wordOfBytes_toNat (hi lo : Byte) : (wordOfBytes hi lo).toNat = hi.toNat * 256 + lo.toNat := by
  rw [wordOfBytes, BitVec.toNat_append, ← Nat.shiftLeft_add_eq_or_of_lt lo.isLt, Nat.shiftLeft_eq]

/-- A fetch that faults ends the STEP, with no word in the record (60_exceptions R210). -/
theorem step_of_fetch_error {s : State} {e : Nat} (h : fetch16 s = .error e) :
    step s = .fault (.addressing s.pc none e s) := by
  simp only [step, h]

/-- Settles O7: the fetch succeeds when both bytes are inside memory; otherwise it faults at the first that is not,
which is the second byte at 0xFFF and the first byte from 0x1000 up. -/
theorem fetchIsBigEndianAndBounded : Obligations.FetchIsBigEndianAndBounded := by
  intro s
  refine ⟨fun hpc => ?_, fun hpc => ?_, fun hpc => ?_⟩
  · exact ⟨_, fetch16_ok.2 ⟨by simp only [memSize]; omega, rfl⟩, wordOfBytes_toNat _ _⟩
  · exact step_of_fetch_error (fetch16_error.2 (by simp [memSize, hpc]))
  · exact step_of_fetch_error (fetch16_error.2 ⟨Nat.le_succ_of_le hpc, (if_pos hpc).symm⟩)

/-! ### The bytes Fx55 stores -/

/-- A completed Fx55 stored inside memory, and the byte at `I + r` is the register `r` (43_index_memory R174). -/
theorem execStore_next_read {x : Reg} {s t : State} (hwf : s.mem.wf = true) (h : execStore x s = .next t) :
    s.I.toNat + regCount x ≤ memSize ∧
      ∀ r : Reg, r.toNat ≤ x.toNat → t.mem.read (s.I.toNat + r.toNat) = readV r s := by
  obtain ⟨u, hu, rfl⟩ := execStore_next.1 h
  obtain ⟨hbound, -, hmem⟩ := storeBytes_done hu
  obtain ⟨-, hread⟩ := hmem hwf
  rw [regsUpTo_length] at hbound hread
  refine ⟨hbound (List.ne_nil_of_length_pos (by simp [regCount])), fun r hr => ?_⟩
  rw [advance_mem, advanceIndex_mem, hread, if_pos (by simp only [regCount]; omega), Nat.add_sub_cancel_left,
    regsUpTo_getD s hr]

/-- Settles O47: both registers were stored inside memory, so the fetch at the first one's address succeeds and reads
the two bytes. -/
theorem storesAreVisibleToFetch : Obligations.StoresAreVisibleToFetch := by
  intro s t x r q hwf h hq hqx
  obtain ⟨hbound, hread⟩ := execStore_next_read hwf h
  simp only [regCount, memSize] at hbound
  have haddr : (s.I + r.setWidth 16).toNat = s.I.toNat + r.toNat := by bv_omega
  rw [fetch16_ok, jumpTo_pc, jumpTo_mem, haddr, Nat.add_assoc, ← hq, hread r (by omega), hread q hqx]
  exact ⟨by simp only [memSize]; omega, rfl⟩

end Sys2Proof.Machine

/-! PROOFS. The family 30_encoding: decoding and encoding undo each other (R70, R73, R74), no two rows match one word
and which words no enabled row matches (R73, R76, R77), and the instruction a STEP runs (R77, R80, R83). -/

namespace Sys2Proof

/-! ### From an instruction to its word and back -/

open Laws in
/-- Each row reads back the word of its instruction (R73). -/
theorem decodeRow_encode : (i : Instr) → decodeRow (encode i) = some i
  | .cls => RowRoundTrip.cls
  | .ret => RowRoundTrip.ret
  | .jp nnn => RowRoundTrip.jp nnn
  | .call nnn => RowRoundTrip.call nnn
  | .seImm x nn => RowRoundTrip.seImm x nn
  | .sneImm x nn => RowRoundTrip.sneImm x nn
  | .seReg x y => RowRoundTrip.seReg x y
  | .ldImm x nn => RowRoundTrip.ldImm x nn
  | .addImm x nn => RowRoundTrip.addImm x nn
  | .ldReg x y => RowRoundTrip.ldReg x y
  | .orReg x y => RowRoundTrip.orReg x y
  | .andReg x y => RowRoundTrip.andReg x y
  | .xorReg x y => RowRoundTrip.xorReg x y
  | .addReg x y => RowRoundTrip.addReg x y
  | .sub x y => RowRoundTrip.sub x y
  | .shr x y => RowRoundTrip.shr x y
  | .subn x y => RowRoundTrip.subn x y
  | .shl x y => RowRoundTrip.shl x y
  | .sneReg x y => RowRoundTrip.sneReg x y
  | .ldI nnn => RowRoundTrip.ldI nnn
  | .jpV0 nnn => RowRoundTrip.jpV0 nnn
  | .rnd x nn => RowRoundTrip.rnd x nn
  | .drw x y n => RowRoundTrip.drw x y n
  | .skp x => RowRoundTrip.skp x
  | .sknp x => RowRoundTrip.sknp x
  | .ldVxDt x => RowRoundTrip.ldVxDt x
  | .ldVxK x => RowRoundTrip.ldVxK x
  | .ldDtVx x => RowRoundTrip.ldDtVx x
  | .ldStVx x => RowRoundTrip.ldStVx x
  | .addI x => RowRoundTrip.addI x
  | .ldF x => RowRoundTrip.ldF x
  | .ldB x => RowRoundTrip.ldB x
  | .store x => RowRoundTrip.store x
  | .load x => RowRoundTrip.load x

/-- The word of an enabled instruction decodes to it. -/
theorem decode_encode {cfg : Config} {i : Instr} (h : i.wf cfg = true) : decode cfg (encode i) = .ok i :=
  decode_ok.2 ⟨decodeRow_encode i, h⟩

/-- The word of an instruction whose row is not enabled is refused as such (R77). -/
theorem decode_encode_disabled {cfg : Config} {i : Instr} (h : i.wf cfg = false) :
    decode cfg (encode i) = .error (.disabled (encode i)) := by
  simp [decode, decodeRow_encode, h]

/-- The two stored bytes of a word are decoded as the word, and the bytes after them are left. -/
theorem decodeBytes_bytesOfWord (cfg : Config) (w : Word) (rest : List Byte) :
    decodeBytes cfg (bytesOfWord w ++ rest) = (decode cfg w).map fun i => (i, rest) := by
  have hbytes : bytesOfWord w ++ rest = highByte w :: lowByte w :: rest := rfl
  rw [hbytes, decodeBytes, wordOfBytes_bytes]
  cases decode cfg w <;> rfl

/-- Settles O1: the stored bytes are the word's, and the word decodes to the instruction. -/
theorem decodeOfEncodedBytes : Obligations.DecodeOfEncodedBytes := by
  intro cfg i rest hwf
  rw [encodeBytes, decodeBytes_bytesOfWord, decode_encode hwf]
  rfl

/-- Settles O5: each word is the encoding of the instruction it stands for. -/
theorem sampleWordsDecode : Obligations.SampleWordsDecode := by
  intro cfg
  exact ⟨decode_encode (i := .ret) rfl, decode_encode (i := .seReg 0x1 0x2) rfl,
    decode_encode (i := .shl 0x1 0x0) rfl, decode_encode (i := .jpV0 0x300) rfl,
    decode_encode (i := .drw 0x1 0x2 0x5) rfl, decode_encode (i := .sknp 0x5) rfl, decode_encode (i := .ldB 0xA) rfl⟩

/-! ### What a row's mask compares: the family, and in some families the low nibble or the low byte -/

/-- The family of a word, `w[15:12]`: every row fixes it (R73). -/
def fieldOp (w : Word) : BitVec 4 := w.extractLsb' 12 4

theorem fieldOp_toNat (w : Word) : (fieldOp w).toNat = w.toNat / 4096 := by
  simp only [fieldOp, BitVec.extractLsb'_toNat, Nat.shiftRight_eq_div_pow]
  omega

theorem fieldN_toNat (w : Word) : (fieldN w).toNat = w.toNat % 16 := by
  simp [fieldN, BitVec.extractLsb'_toNat]

theorem fieldNn_toNat (w : Word) : (fieldNn w).toNat = w.toNat % 256 := by
  simp [fieldNn, BitVec.extractLsb'_toNat]

theorem and_F000 (w : Word) : w &&& 0xF000 = fieldOp w ++ 0#12 := by
  conv_lhs => rw [← word_addr w, mask_addr]
  rfl

theorem and_F00F (w : Word) : w &&& 0xF00F = fieldOp w ++ 0#8 ++ fieldN w := by
  conv_lhs => rw [← word_regs w, mask_regs]
  rfl

theorem and_F0FF (w : Word) : w &&& 0xF0FF = fieldOp w ++ 0#4 ++ fieldNn w := by
  conv_lhs => rw [← word_imm w, mask_sub]
  rfl

/-- A row with the mask 0xF000 matches the words of its family. -/
theorem matches_F000 {v w : Word} {b : Word → Instr} (hv : v &&& 0xF000 = v) :
    Row.matches ⟨v, 0xF000, b⟩ w = true ↔ fieldOp w = fieldOp v := by
  simp only [Row.matches, beq_iff_eq]
  refine ⟨fun h => extract_of_mask h rfl, fun h => ?_⟩
  rw [and_F000, h, ← and_F000, hv]

/-- A row with the mask 0xF00F matches the words of its family with its low nibble. -/
theorem matches_F00F {v w : Word} {b : Word → Instr} (hv : v &&& 0xF00F = v) :
    Row.matches ⟨v, 0xF00F, b⟩ w = true ↔ fieldOp w = fieldOp v ∧ fieldN w = fieldN v := by
  simp only [Row.matches, beq_iff_eq]
  refine ⟨fun h => ⟨extract_of_mask h rfl, extract_of_mask h rfl⟩, fun ⟨hop, hn⟩ => ?_⟩
  rw [and_F00F, hop, hn, ← and_F00F, hv]

/-- A row with the mask 0xF0FF matches the words of its family with its low byte. -/
theorem matches_F0FF {v w : Word} {b : Word → Instr} (hv : v &&& 0xF0FF = v) :
    Row.matches ⟨v, 0xF0FF, b⟩ w = true ↔ fieldOp w = fieldOp v ∧ fieldNn w = fieldNn v := by
  simp only [Row.matches, beq_iff_eq]
  refine ⟨fun h => ⟨extract_of_mask h rfl, extract_of_mask h rfl⟩, fun ⟨hop, hnn⟩ => ?_⟩
  rw [and_F0FF, hop, hnn, ← and_F0FF, hv]

/-- A row with the full mask matches its own word alone. -/
theorem matches_FFFF {v w : Word} {b : Word → Instr} : Row.matches ⟨v, 0xFFFF, b⟩ w = true ↔ w.toNat = v.toNat := by
  have hall : (0xFFFF : Word) = BitVec.allOnes 16 := rfl
  rw [Row.matches, beq_iff_eq, hall, BitVec.and_allOnes, BitVec.toNat_inj]

/-! ### From a word to its instruction and back -/

/-- The row drops no bit: a word it matches is the encoding of the instruction it builds. -/
def Row.Exact (r : Row) : Prop := ∀ w, r.matches w = true → encode (r.build w) = w

/-- A row without operands: the mask compares the whole word. -/
theorem Row.exact_fixed {v : Word} {i : Instr} (he : encode i = v := by rfl) :
    Row.Exact ⟨v, 0xFFFF, fun _ => i⟩ :=
  fun _ h => he.trans (BitVec.eq_of_toNat_eq (matches_FFFF.1 h)).symm

/-- A row whose instruction keeps the twelve bits the mask leaves out as an address. -/
theorem Row.exact_addr {v : Word} {f : Imm12 → Instr} (hv : v &&& 0xF000 = v := by rfl)
    (he : ∀ nnn, encode (f nnn) = fieldOp v ++ nnn := by intros; rfl) :
    Row.Exact ⟨v, 0xF000, fun w => f (fieldNnn w)⟩ := by
  intro w h
  rw [he, ← (matches_F000 hv).1 h]
  exact word_addr w

/-- A row whose instruction keeps the twelve bits the mask leaves out as a register and a byte. -/
theorem Row.exact_imm {v : Word} {f : Reg → Byte → Instr} (hv : v &&& 0xF000 = v := by rfl)
    (he : ∀ x nn, encode (f x nn) = fieldOp v ++ x ++ nn := by intros; rfl) :
    Row.Exact ⟨v, 0xF000, fun w => f (fieldX w) (fieldNn w)⟩ := by
  intro w h
  rw [he, ← (matches_F000 hv).1 h]
  exact word_imm w

/-- A row whose instruction keeps the twelve bits the mask leaves out as two registers and a count. -/
theorem Row.exact_count {v : Word} {f : Reg → Reg → Count → Instr} (hv : v &&& 0xF000 = v := by rfl)
    (he : ∀ x y n, encode (f x y n) = fieldOp v ++ x ++ y ++ n := by intros; rfl) :
    Row.Exact ⟨v, 0xF000, fun w => f (fieldX w) (fieldY w) (fieldN w)⟩ := by
  intro w h
  rw [he, ← (matches_F000 hv).1 h]
  exact word_regs w

/-- A row whose instruction keeps the eight bits the mask leaves out as two registers. -/
theorem Row.exact_regs {v : Word} {f : Reg → Reg → Instr} (hv : v &&& 0xF00F = v := by rfl)
    (he : ∀ x y, encode (f x y) = fieldOp v ++ x ++ y ++ fieldN v := by intros; rfl) :
    Row.Exact ⟨v, 0xF00F, fun w => f (fieldX w) (fieldY w)⟩ := by
  intro w h
  obtain ⟨hop, hn⟩ := (matches_F00F hv).1 h
  rw [he, ← hop, ← hn]
  exact word_regs w

/-- A row whose instruction keeps the four bits the mask leaves out as a register. -/
theorem Row.exact_reg {v : Word} {f : Reg → Instr} (hv : v &&& 0xF0FF = v := by rfl)
    (he : ∀ x, encode (f x) = fieldOp v ++ x ++ fieldNn v := by intros; rfl) :
    Row.Exact ⟨v, 0xF0FF, fun w => f (fieldX w)⟩ := by
  intro w h
  obtain ⟨hop, hnn⟩ := (matches_F0FF hv).1 h
  rw [he, ← hop, ← hnn]
  exact word_imm w

open Row in
/-- The 34 rows in the order of R73, each by the form of its operands. -/
theorem rows_exact : ∀ r ∈ rows, r.Exact := by
  simp only [rows, rowsLow, rowsAlu, rowsHigh, rowsMisc, List.forall_mem_append, List.forall_mem_cons]
  refine ⟨⟨⟨?low, ?alu⟩, ?high⟩, ?misc⟩
  case low =>
    exact ⟨exact_fixed, exact_fixed, exact_addr, exact_addr, exact_imm, exact_imm, exact_regs, exact_imm, exact_imm,
      List.forall_mem_nil _⟩
  case alu =>
    exact ⟨exact_regs, exact_regs, exact_regs, exact_regs, exact_regs, exact_regs, exact_regs, exact_regs, exact_regs,
      List.forall_mem_nil _⟩
  case high =>
    exact ⟨exact_regs, exact_addr, exact_addr, exact_imm, exact_count, exact_reg, exact_reg, List.forall_mem_nil _⟩
  case misc =>
    exact ⟨exact_reg, exact_reg, exact_reg, exact_reg, exact_reg, exact_reg, exact_reg, exact_reg, exact_reg,
      List.forall_mem_nil _⟩

/-- Settles O2: the row that decoded the word drops no bit of it. -/
theorem encodeOfDecodedWord : Obligations.EncodeOfDecodedWord := by
  intro cfg w i h
  obtain ⟨hrow, hwf⟩ := decode_ok.1 h
  obtain ⟨r, hr, hmatch, rfl⟩ := decodeRow_some hrow
  exact ⟨hwf, rows_exact r hr w hmatch⟩

/-! ### Which words are instructions -/

/-- Of two places of the map the earlier one's row shares no word with the later one's. -/
theorem rows_not_both_match {m n : Fin rows.length} (hlt : m < n) {w : Word} (hm : rows[m].matches w = true) :
    rows[n].matches w ≠ true :=
  Bool.eq_false_iff.1 (Row.not_both_match (List.pairwise_iff_getElem.1 rows_apart m n m.isLt n.isLt hlt) hm)

/-- Settles O3: of two different places one comes first, and its row excludes the other's. -/
theorem noTwoRowsMatchOneWord : Obligations.NoTwoRowsMatchOneWord := by
  refine ⟨rfl, fun m n w hm hn => ?_⟩
  rcases lt_trichotomy m n with hlt | heq | hgt
  · exact absurd hn (rows_not_both_match hlt hm)
  · exact heq
  · exact absurd hm (rows_not_both_match hgt hn)

/-- A row of the map decodes the words it matches. -/
theorem decodeRow_of_mem {r : Row} (hr : r ∈ rows) {w : Word} (h : r.matches w = true) :
    decodeRow w = some (r.build w) :=
  (congrArg decodeRow (rows_exact r hr w h)).symm.trans (decodeRow_encode (r.build w))

/-- Every row of `l` that matches `w` is disabled under `cfg` (R75, R77). -/
def Unrecognised (cfg : Config) (w : Word) (l : List Row) : Prop :=
  ∀ r ∈ l, r.matches w = true → (r.build w).wf cfg = false

theorem unrecognised_nil (cfg : Config) (w : Word) : Unrecognised cfg w [] := List.forall_mem_nil _

theorem unrecognised_cons {cfg : Config} {w : Word} {r : Row} {l : List Row} :
    Unrecognised cfg w (r :: l) ↔ (r.matches w = true → (r.build w).wf cfg = false) ∧ Unrecognised cfg w l :=
  List.forall_mem_cons

/-- A word is no instruction exactly when the whole map leaves it unrecognised. -/
theorem decode_error_iff {cfg : Config} {w : Word} :
    (∃ e, decode cfg w = .error e) ↔ Unrecognised cfg w rows := by
  constructor
  · rintro ⟨e, he⟩ r hr hmatch
    by_contra hwf
    have hok : decode cfg w = .ok (r.build w) :=
      decode_ok.2 ⟨decodeRow_of_mem hr hmatch, Bool.eq_true_of_not_eq_false hwf⟩
    exact nomatch he.symm.trans hok
  · intro h
    cases hd : decode cfg w with
    | error e => exact ⟨e, rfl⟩
    | ok i =>
      obtain ⟨hrow, hwf⟩ := decode_ok.1 hd
      obtain ⟨r, hr, hmatch, rfl⟩ := decodeRow_some hrow
      exact absurd hwf (Bool.eq_false_iff.1 (h r hr hmatch))

theorem fieldOp_eq {w v : Word} : fieldOp w = fieldOp v ↔ w.toNat / 4096 = v.toNat / 4096 := by
  rw [← BitVec.toNat_inj, fieldOp_toNat, fieldOp_toNat]

theorem fieldN_eq {w v : Word} : fieldN w = fieldN v ↔ w.toNat % 16 = v.toNat % 16 := by
  rw [← BitVec.toNat_inj, fieldN_toNat, fieldN_toNat]

theorem fieldNn_eq {w v : Word} : fieldNn w = fieldNn v ↔ w.toNat % 256 = v.toNat % 256 := by
  rw [← BitVec.toNat_inj, fieldNn_toNat, fieldNn_toNat]

/-- The families 0 to 7: only 0 and 5 hold words that no row matches. -/
theorem unrecognised_low {cfg : Config} {w : Word} : Unrecognised cfg w rowsLow ↔
    (w.toNat / 4096 = 0 → w.toNat ≠ 0x00E0 ∧ w.toNat ≠ 0x00EE) ∧ w.toNat / 4096 ∉ [1, 2, 3, 4, 6, 7] ∧
      (w.toNat / 4096 = 5 → w.toNat % 16 ≠ 0) := by
  simp (disch := decide) only [rowsLow, unrecognised_cons, unrecognised_nil, matches_FFFF, matches_F000, matches_F00F,
    fieldOp_eq, fieldN_eq, Instr.wf, List.mem_cons, List.not_mem_nil, BitVec.reduceToNat, reduceCtorEq,
    imp_false, or_false, and_true]
  omega

/-- Family 8: the low nibble selects the row, and 8xy1 is as its parameter says. -/
theorem unrecognised_alu {cfg : Config} {w : Word} : Unrecognised cfg w rowsAlu ↔
    (w.toNat / 4096 = 8 →
      w.toNat % 16 ∈ [8, 9, 0xA, 0xB, 0xC, 0xD, 0xF] ∨ (w.toNat % 16 = 1 ∧ cfg.or8xy1 = false)) := by
  simp (disch := decide) only [rowsAlu, unrecognised_cons, unrecognised_nil, matches_F00F, fieldOp_eq, fieldN_eq,
    Instr.wf, List.mem_cons, List.not_mem_nil, BitVec.reduceToNat, reduceCtorEq, imp_false, or_false, and_true]
  cases cfg.or8xy1 with
  | false => simp only [implies_true, true_and, and_true]; omega
  | true => simp only [reduceCtorEq, imp_false, and_false, or_false]; omega

/-- The families 9 to E: of 9 the low nibble is 0, and of E the low byte is one of two. -/
theorem unrecognised_high {cfg : Config} {w : Word} : Unrecognised cfg w rowsHigh ↔
    (w.toNat / 4096 = 9 → w.toNat % 16 ≠ 0) ∧ w.toNat / 4096 ∉ [0xA, 0xB, 0xC, 0xD] ∧
      (w.toNat / 4096 = 0xE → w.toNat % 256 ∉ [0x9E, 0xA1]) := by
  simp (disch := decide) only [rowsHigh, unrecognised_cons, unrecognised_nil, matches_F000, matches_F00F, matches_F0FF,
    fieldOp_eq, fieldN_eq, fieldNn_eq, Instr.wf, List.mem_cons, List.not_mem_nil, BitVec.reduceToNat, reduceCtorEq,
    imp_false, or_false, and_true]
  omega

/-- Family F: the low byte selects the row. -/
theorem unrecognised_misc {cfg : Config} {w : Word} : Unrecognised cfg w rowsMisc ↔
    (w.toNat / 4096 = 0xF → w.toNat % 256 ∉ [0x07, 0x0A, 0x15, 0x18, 0x1E, 0x29, 0x33, 0x55, 0x65]) := by
  simp (disch := decide) only [rowsMisc, unrecognised_cons, unrecognised_nil, matches_F0FF, fieldOp_eq, fieldNn_eq,
    Instr.wf, List.mem_cons, List.not_mem_nil, BitVec.reduceToNat, reduceCtorEq, imp_false, or_false,
    and_true]
  omega

theorem unrecognised_rows {cfg : Config} {w : Word} : Unrecognised cfg w rows ↔
    (Unrecognised cfg w rowsLow ∧ Unrecognised cfg w rowsAlu) ∧
      Unrecognised cfg w rowsHigh ∧ Unrecognised cfg w rowsMisc := by
  simp only [Unrecognised, rows, List.forall_mem_append, and_assoc]

/-- Settles O4: the four parts of the map say what they match by family and, inside a family, by the low bits; what is
left is one check per family. -/
theorem unrecognisedWordsByFamily : Obligations.UnrecognisedWordsByFamily := by
  intro cfg w
  rw [decode_error_iff, unrecognised_rows, unrecognised_low, unrecognised_alu, unrecognised_high, unrecognised_misc]
  have hfamily : w.toNat / 4096 < 16 := by omega
  generalize w.toNat / 4096 = family at hfamily ⊢
  interval_cases family <;> simp

/-! ### The map with every row enabled -/

theorem wf_allRows (cfg : Config) (i : Instr) : i.wf cfg.allRows = true := by
  cases i <;> rfl

/-- The opcode table reads what the decode map reads, every row being enabled (log 3). -/
theorem decodeTableWord_eq (nbits w : Nat) : decodeTableWord nbits w = decodeRow (tableWord nbits w) := by
  rw [decodeTableWord, ← List.append_nil (bytesOfWord _), decodeBytes_bytesOfWord, decode]
  cases decodeRow (tableWord nbits w) with
  | none => rfl
  | some i => simp only [wf_allRows, if_true, Except.map]

end Sys2Proof

namespace Sys2Proof.Machine

/-! ### The instruction a STEP runs -/

/-- A fetched word that does not decode ends the STEP with the word in the record, and changes nothing (R77). -/
theorem step_of_decode_error {s : State} {w : Word} {e : Reject} (hf : fetch16 s = .ok w)
    (hd : decode s.cfg w = .error e) : step s = .fault (.unknownOpcode s.pc w s) := by
  simp only [step, hf, hd]

/-- Settles O6: the two bytes are what the STEP fetches. -/
theorem stepRunsDecodedInstruction : Obligations.StepRunsDecodedInstruction := by
  intro s hi lo i hhi hlo hd
  obtain ⟨-, rfl⟩ := memRead_ok.1 hhi
  obtain ⟨hbound, rfl⟩ := memRead_ok.1 hlo
  exact step_eq_exec (fetch16_ok.2 ⟨hbound, rfl⟩) hd

/-- Settles O9: the word is the encoding of the OR, whose row OR_8XY1 enables. -/
theorem orIsRecognisedOnlyWhenEnabled : Obligations.OrIsRecognisedOnlyWhenEnabled := by
  intro s x y hf
  constructor
  · intro hon
    exact step_eq_exec hf (decode_encode (i := .orReg x y) hon)
  · intro hoff
    exact step_of_decode_error hf (decode_encode_disabled (i := .orReg x y) hoff)

/-- The next fetch reads the word that was placed at `pc`. -/
theorem fetch16_placeWord {s : State} (w : Word) (hwf : s.mem.wf = true) (hpc : s.pc.toNat + 1 < memSize) :
    fetch16 (placeWord w s) = .ok w := by
  have hmem := write_wf hwf (Nat.lt_of_succ_lt hpc) (highByte w)
  rw [placeWord, if_pos hpc, fetch16_ok]
  refine ⟨hpc, ?_⟩
  simp [read_write hmem, read_write hwf, wordOfBytes_bytes]

/-- The configuration chosen for a word enables the row that decodes it. -/
theorem decode_configFor {w : Word} {i : Instr} (h : decodeRow w = some i) (cfg : Config) :
    decode (configFor w cfg) w = .ok i := by
  refine decode_ok.2 ⟨h, ?_⟩
  simp only [configFor, h]
  split
  · assumption
  · exact wf_allRows cfg i

/-- Settles O48: the placed word is what the next STEP fetches, under a configuration that enables its row. -/
theorem placedWordRunsNext : Obligations.PlacedWordRunsNext := by
  intro s w i hwf hpc hw
  rw [decodeTableWord_eq] at hw
  have hfetch : fetch16 (s.withFetchWord 16 w) = .ok (tableWord 16 w) := fetch16_placeWord _ hwf hpc
  exact step_eq_exec hfetch (decode_configFor hw s.cfg)

end Sys2Proof.Machine

/-! PROOFS. The family 40_display: 00E0 (R103), Dxyn inside memory and past it (R104, 60_exceptions R217), and a sprite
drawn twice (R105). -/

namespace Sys2Proof.Machine

/-! ### Frames (00_scope R11) -/

theorem Part.same_trans {s t u : State} {p : Part} (h : p.same s t) (h' : p.same t u) : p.same s u := by
  cases p <;> exact Eq.trans h' h

/-- A frame extended by a later one: what neither names keeps its value through both. -/
theorem OnlyChanges.trans {P Q : Part → Prop} {s t u : State} (h : OnlyChanges P s t) (h' : OnlyChanges Q t u) :
    OnlyChanges (fun p => Q p ∨ P p) s u := fun p hp =>
  Part.same_trans (h p (not_or.1 hp).2) (h' p (not_or.1 hp).1)

/-- A frame does not speak of `pc`. -/
theorem OnlyChanges.advance {P : Part → Prop} {s t : State} (h : OnlyChanges P s t) :
    OnlyChanges P s (advance t) := by
  intro p hp
  cases p <;> exact h _ hp

theorem onlyChanges_writeV (x : Reg) (b : Byte) (s : State) : OnlyChanges (· = .reg x) s (writeV x b s) := by
  intro p hp
  cases p with
  | reg r => exact readV_writeV_ne (fun hr => hp (congrArg Part.reg hr)) b s
  | _ => exact rfl

/-- A new framebuffer changes at most the pixels in which it differs. -/
theorem onlyChanges_fb {P : Part → Prop} {s : State} {fb : Framebuffer}
    (h : ∀ r c, ¬ P (.pixel r c) → fb.pixel r c = s.fb.pixel r c) : OnlyChanges P s { s with fb := fb } := by
  intro p hp
  cases p with
  | pixel r c => exact h r c hp
  | _ => exact rfl

/-! ### Clearing the screen -/

/-- Settles O19: the blank framebuffer differs from any other in pixels alone. -/
theorem clsClearsTheScreen : Obligations.ClsClearsTheScreen := by
  refine ⟨fun cfg hwf => decode_encode hwf, fun s => ⟨advance (fbClear s), rfl, rfl, pixel_blank, ?_⟩⟩
  have hframe : OnlyChanges (fun p => ∃ r c, p = .pixel r c) s (fbClear s) :=
    onlyChanges_fb fun r c hp => absurd ⟨r, c, rfl⟩ hp
  exact hframe.advance

/-! ### A sprite XORed onto the screen -/

/-- `fb` is the framebuffer of `s` with the first `len` rows of the sprite at `I` XORed onto it at column `cx` and
row `cy` (R100, R104). -/
def SpriteXored (s : State) (cx cy len : Nat) (fb : Framebuffer) : Prop :=
  ∀ r c, fb.pixel r c = true ↔ (s.fb.pixel r c = true ↔ ¬ SpriteLights s s.I.toNat cx cy len r c)

namespace SpriteXored

variable {s t : State} {cx cy len : Nat} {fb : Framebuffer} {r : Fin 32} {c : Fin 64}

/-- A 1 bit toggles the pixel it lands on. -/
theorem pixel_of_lights (h : SpriteXored s cx cy len fb) (hl : SpriteLights s s.I.toNat cx cy len r c) :
    fb.pixel r c = !s.fb.pixel r c := by
  rw [Bool.eq_iff_iff, h]; simp [hl]

/-- A pixel that no 1 bit lands on is kept. -/
theorem pixel_of_not_lights (h : SpriteXored s cx cy len fb) (hl : ¬ SpriteLights s s.I.toNat cx cy len r c) :
    fb.pixel r c = s.fb.pixel r c := by
  rw [Bool.eq_iff_iff, h]; simp [hl]

/-- The frame: what the sprite lights is in its box. -/
theorem onlyChanges (h : SpriteXored s cx cy len fb) : OnlyChanges (spriteBox cx cy len) s { s with fb := fb } := by
  refine onlyChanges_fb fun r c hbox => h.pixel_of_not_lights ?_
  rintro ⟨k, hk, b, hb, rfl, rfl, -⟩
  exact hbox ⟨k, hk, b, hb, rfl⟩

/-- XOR is its own inverse (R105): each pixel is toggled twice or never. -/
theorem twice (h : SpriteXored s cx cy len t.fb) (h' : SpriteXored t cx cy len fb) (hI : t.I = s.I)
    (hmem : t.mem = s.mem) : fb = s.fb := by
  refine framebuffer_ext fun r c => ?_
  have hsame : SpriteLights t t.I.toNat cx cy len r c ↔ SpriteLights s s.I.toNat cx cy len r c := by
    simp only [SpriteLights, spriteBit, hI, hmem]
  by_cases hl : SpriteLights s s.I.toNat cx cy len r c
  · rw [h'.pixel_of_lights (hsame.2 hl), h.pixel_of_lights hl, Bool.not_not]
  · rw [h'.pixel_of_not_lights (mt hsame.1 hl), h.pixel_of_not_lights hl]

/-- A second draw erases what the first turned on: a 1 bit met an off pixel in the first (log 13). -/
theorem erases_iff (h : SpriteXored s cx cy len t.fb) (hI : t.I = s.I) (hmem : t.mem = s.mem) :
    SpriteErases t t.I.toNat cx cy len ↔ ∃ k < len, ∃ b < 8, spriteBit s s.I.toNat k b = true ∧
      s.fb.pixel (Fin.ofNat 32 (cy + k)) (Fin.ofNat 64 (cx + b)) = false := by
  have hbit (k b : Nat) : spriteBit t t.I.toNat k b = spriteBit s s.I.toNat k b := by
    simp only [spriteBit, hI, hmem]
  simp only [SpriteErases, hbit]
  refine exists_congr fun k => and_congr_right fun hk => exists_congr fun b => and_congr_right fun hb =>
    and_congr_right fun hlit => ?_
  rw [h.pixel_of_lights ⟨k, hk, b, hb, rfl, rfl, hlit⟩, Bool.not_eq_true']

end SpriteXored

/-! ### Dxyn -/

theorem flagByte_eq_one {a : Bool} : flagByte a = 1 ↔ a = true := by
  cases a <;> decide

theorem flagByte_eq_zero {a : Bool} : flagByte a = 0 ↔ a = false := by
  cases a <;> decide

theorem execDrw_completes (x y : Reg) {n : Count} {s : State} (h : n.toNat = 0 ∨ s.I.toNat + n.toNat ≤ memSize) :
    ∃ t, execDrw x y n s = .next t := by
  obtain ⟨a, u, hu⟩ := (drawRows_total (count_le n) false s).1 h
  exact ⟨_, execDrw_next.2 ⟨a, u, hu, rfl⟩⟩

/-- What a completed Dxyn has read and what it leaves (R104). -/
theorem execDrw_next_xored {x y : Reg} {n : Count} {s t : State} (h : execDrw x y n s = .next t) :
    (n.toNat = 0 ∨ s.I.toNat + n.toNat ≤ memSize) ∧
      ∃ fb a, SpriteXored s (readV x s).toNat (readV y s).toNat n.toNat fb ∧
        (a = true ↔ SpriteErases s s.I.toNat (readV x s).toNat (readV y s).toNat n.toNat) ∧
        t = advance (writeV VF (flagByte a) { s with fb := fb }) := by
  obtain ⟨a, u, hu, rfl⟩ := execDrw_next.1 h
  obtain ⟨hbound, hframe, hpixel, ha⟩ := drawRows_done (count_le n) hu
  simp only [Bool.false_eq_true, false_or] at ha
  exact ⟨or_iff_not_imp_left.2 hbound, u.fb, a, hpixel, ha, by rw [← hframe]⟩

/-- Dxyn past memory (R104, R217): the fault, and the rows that were read XORed onto the screen. -/
theorem execDrw_faults (x y : Reg) {n : Count} {s : State} (hn : n.toNat ≠ 0) (h : memSize < s.I.toNat + n.toNat) :
    ∃ fb, SpriteXored s (readV x s).toNat (readV y s).toNat (goodCount s.I.toNat) fb ∧
      execDrw x y n s =
        .fault (.addressing s.pc (some (encode (.drw x y n))) (firstBad s.I.toNat) { s with fb := fb }) := by
  obtain ⟨e, u, hu⟩ := (drawRows_total (count_le n) false s).2 hn h
  obtain ⟨-, rfl, hframe, hpixel⟩ := drawRows_stopped (count_le n) hu
  refine ⟨u.fb, hpixel, conclude_fault.2 ⟨_, u, hu, ?_⟩⟩
  rw [hframe]; rfl

/-- Settles O20: the sprite is XORed onto the screen, and then the flag goes to VF. -/
theorem drwDrawsTheSprite : Obligations.DrwDrawsTheSprite := by
  intro s x y n hn
  obtain ⟨t, ht⟩ := execDrw_completes x y (hn.imp_left (congrArg BitVec.toNat))
  obtain ⟨-, fb, a, hxored, ha, rfl⟩ := execDrw_next_xored ht
  refine ⟨_, ht, rfl, hxored, fun he => ?_, fun he => ?_, (hxored.onlyChanges.trans (onlyChanges_writeV _ _ _)).advance⟩
  · rw [readV_advance, readV_writeV_same, flagByte_eq_one]
    exact ha.2 he
  · rw [readV_advance, readV_writeV_same, flagByte_eq_zero]
    exact Bool.eq_false_iff.2 (mt ha.1 he)

/-- Settles O21: the fault leaves the state with the rows that were read XORed onto the screen. -/
theorem drwFaultKeepsTheRowsDrawn : Obligations.DrwFaultKeepsTheRowsDrawn := by
  intro s x y n h hn
  obtain ⟨fb, hxored, hfault⟩ := execDrw_faults x y (BitVec.toNat_ne.1 hn) h
  exact ⟨_, hfault, rfl, hxored, hxored.onlyChanges⟩

/-- Settles O22: the second draw XORs the same sprite onto what the first left. -/
theorem drawingTwiceRestoresTheScreen : Obligations.DrawingTwiceRestoresTheScreen := by
  intro s t x y n h hx hy
  obtain ⟨hbound, fb, a, hxored, -, ht⟩ := execDrw_next_xored h
  have hI : t.I = s.I := by rw [ht]; rfl
  have hmem : t.mem = s.mem := by rw [ht]; rfl
  have hfb : t.fb = fb := by rw [ht]; rfl
  rw [← hI] at hbound
  rw [← hfb] at hxored
  obtain ⟨u, hu⟩ := execDrw_completes x y hbound
  obtain ⟨-, fb', a', hxored', ha', rfl⟩ := execDrw_next_xored hu
  rw [hx, hy] at hxored' ha'
  refine ⟨_, hu, hxored.twice hxored' hI hmem, ?_⟩
  rw [readV_advance, readV_writeV_same, flagByte_eq_one, ha', hxored.erases_iff hI hmem]

end Sys2Proof.Machine

/-! PROOFS. The family 41_control_flow: return and call with the stack they move (R120, R122), the jumps (R121, R127),
and the register skips (R123 to R126, R128). -/

namespace Sys2Proof.Machine

/-! ### The words of 30_encoding R73 -/

/-- An instruction's own word decodes to it. -/
theorem decodesTo_encode (i : Instr) : DecodesTo (encode i) i := fun _ => decode_encode

/-! ### Targets -/

theorem zextImm_toNat (nnn : Imm12) : (zextImm nnn).toNat = nnn.toNat :=
  BitVec.toNat_setWidth_of_le (by decide)

/-- `V0 + nnn` fits 16 bits, so nothing is masked (R127). -/
theorem indexedTarget_toNat (v0 : Byte) (nnn : Imm12) : (indexedTarget v0 nnn).toNat = v0.toNat + nnn.toNat := by
  have hv0 := v0.isLt
  have hnnn := nnn.isLt
  rw [indexedTarget, BitVec.toNat_ofNat]
  omega

/-! ### Frames of the control transfers -/

theorem onlyChanges_refl (P : Part → Prop) (s : State) : OnlyChanges P s s := by
  intro p _
  cases p <;> rfl

/-- A frame does not speak of `pc`, wherever it goes. -/
theorem OnlyChanges.jumpTo {P : Part → Prop} {s t : State} (h : OnlyChanges P s t) (target : Word) :
    OnlyChanges P s (jumpTo target t) := by
  intro p hp
  cases p <;> exact h _ hp

/-- A skip moves `pc` alone. -/
theorem onlyChanges_skipIf (c : Bool) (s : State) : OnlyChanges nothing s (skipIf c s) :=
  (onlyChanges_refl nothing s).jumpTo _

theorem onlyChanges_stack (s : State) (l : List Word) : OnlyChanges (· = .stack) s { s with stack := l } := by
  intro p hp
  cases p with
  | stack => exact absurd rfl hp
  | _ => exact rfl

/-! ### Return and call -/

/-- Settles O23: the stack, newest entry last, is nonempty in the one case and empty in the other. -/
theorem retPopsTheReturnAddress : Obligations.RetPopsTheReturnAddress := by
  refine ⟨decodesTo_encode .ret, fun s => ⟨fun rest v hstack => ?_, fun hempty => ?_⟩⟩
  · exact ⟨_, execRet_next.2 ⟨rest, v, hstack, rfl⟩, rfl, rfl, (onlyChanges_stack s rest).jumpTo v⟩
  · exact execRet_fault.2 ⟨hempty, rfl⟩

/-- Settles O25: the push succeeds unless the stack holds exactly STACK_LIMIT entries. -/
theorem callPushesTheReturnAddress : Obligations.CallPushesTheReturnAddress := by
  intro s nnn
  refine ⟨decodesTo_encode (.call nnn), fun hroom => ?_, fun hfull => ?_⟩
  · exact ⟨_, execCall_next.2 ⟨hroom, rfl⟩, zextImm_toNat nnn, rfl, (onlyChanges_stack s _).jumpTo _⟩
  · exact execCall_fault.2 ⟨hfull, rfl⟩

/-! ### Jumps -/

/-- Settles O28: the sum fits `pc`. -/
theorem jpV0JumpsUnmasked : Obligations.JpV0JumpsUnmasked := by
  intro s nnn
  exact ⟨decodesTo_encode (.jpV0 nnn), _, rfl, indexedTarget_toNat (readV 0 s) nnn,
    (onlyChanges_refl nothing s).jumpTo _⟩

/-- Settles O24: the immediate is widened without a change of value. -/
theorem jpJumps : Obligations.JpJumps := by
  intro s nnn
  exact ⟨decodesTo_encode (.jp nnn), _, rfl, zextImm_toNat nnn, (onlyChanges_refl nothing s).jumpTo _⟩

/-! ### Skips -/

/-- What the skips on equality do (R123, R125, R128). -/
theorem skipIf_beq_completes (a b : Byte) (s : State) : ∃ t, (.next (skipIf (a == b) s) : Result) = .next t ∧
    t.pc = (if a = b then s.pc + 4 else s.pc + 2) ∧ OnlyChanges nothing s t :=
  ⟨_, rfl, by simp only [skipIf_pc, beq_iff_eq], onlyChanges_skipIf _ s⟩

/-- What the skips on inequality do (R124, R126, R128). -/
theorem skipIf_bne_completes (a b : Byte) (s : State) : ∃ t, (.next (skipIf (a != b) s) : Result) = .next t ∧
    t.pc = (if a = b then s.pc + 2 else s.pc + 4) ∧ OnlyChanges nothing s t :=
  ⟨_, rfl, by simp only [skipIf_pc, bne_iff_ne, ite_not], onlyChanges_skipIf _ s⟩

/-- Settles O26: both skips compare the register with the immediate. -/
theorem immediateSkips : Obligations.ImmediateSkips := fun s x nn =>
  ⟨decodesTo_encode (.seImm x nn), skipIf_beq_completes (readV x s) nn s,
    decodesTo_encode (.sneImm x nn), skipIf_bne_completes (readV x s) nn s⟩

/-- Settles O27: both skips compare the two registers. -/
theorem registerSkips : Obligations.RegisterSkips := fun s x y =>
  ⟨decodesTo_encode (.seReg x y), skipIf_beq_completes (readV x s) (readV y s) s,
    decodesTo_encode (.sneReg x y), skipIf_bne_completes (readV x s) (readV y s) s⟩

end Sys2Proof.Machine

/-! PROOFS. The family 42_register_alu: what one register write leaves (R142 to R147), a result and its flag (R148,
R149, R151), the shifts under both orders of the two writes (R141, R150, R152), and the random draw (R153). -/

namespace Sys2Proof.Machine

/-! ### The 8-bit arithmetic (42_register_alu R140) -/

theorem add8_toNat (a b : Byte) : (add8 a b).toNat = (a.toNat + b.toNat) % 256 := BitVec.toNat_ofNat _ _

theorem sub8_toNat (a b : Byte) : (sub8 a b).toNat = (a.toNat + 256 - b.toNat) % 256 := BitVec.toNat_ofNat _ _

theorem shr1_toNat (a : Byte) : (shr1 a).toNat = a.toNat / 2 := by
  rw [shr1, BitVec.toNat_ushiftRight, Nat.shiftRight_eq_div_pow, Nat.pow_one]

theorem shl1_toNat (a : Byte) : (shl1 a).toNat = a.toNat * 2 % 256 := by
  rw [shl1, BitVec.toNat_shiftLeft, Nat.shiftLeft_eq, Nat.pow_one]

/-! ### The flags (R148 to R152) -/

theorem flagByte_decide (p : Prop) [Decidable p] : flagByte (decide p) = if p then 1 else 0 := by
  simp only [flagByte, decide_eq_true_eq]

theorem carryFlag_eq (a b : Byte) : carryFlag a b = if 255 < a.toNat + b.toNat then 1 else 0 := flagByte_decide _

theorem greaterFlag_eq (a b : Byte) : greaterFlag a b = if b.toNat < a.toNat then 1 else 0 := flagByte_decide _

theorem lowBit_toNat (a : Byte) : (lowBit a).toNat = a.toNat % 2 := by
  rw [lowBit, BitVec.toNat_and]
  exact Nat.and_one_is_mod a.toNat

theorem highBit_toNat (a : Byte) : (highBit a).toNat = a.toNat / 128 := by
  rw [highBit, BitVec.toNat_ushiftRight, Nat.shiftRight_eq_div_pow]

/-- Halving the bit shifted out leaves nothing (R150 under `statement_order`). -/
theorem shr1_lowBit (a : Byte) : shr1 (lowBit a) = 0 := by
  apply BitVec.eq_of_toNat_eq
  rw [shr1_toNat, lowBit_toNat, Nat.div_eq_of_lt (Nat.mod_lt _ (by decide))]
  rfl

/-- Doubling the bit shifted out does not wrap (R152 under `statement_order`). -/
theorem shl1_highBit_toNat (a : Byte) : (shl1 (highBit a)).toNat = a.toNat / 128 * 2 := by
  have ha := a.isLt
  rw [shl1_toNat, highBit_toNat]
  omega

/-! ### One register written -/

/-- What an instruction that writes one register does (R142 to R147). -/
theorem writeV_completes (x : Reg) (b : Byte) (s : State) :
    ∃ t, (.next (advance (writeV x b s)) : Result) = .next t ∧ t.pc = s.pc + 2 ∧ readV x t = b ∧
      OnlyChanges (· = .reg x) s t :=
  ⟨_, rfl, rfl, readV_writeV_same x b s, (onlyChanges_writeV x b s).advance⟩

/-- Settles O29: the register is written with the immediate, or with its wrapping sum. -/
theorem immediateLoadAndAdd : Obligations.ImmediateLoadAndAdd := by
  intro s x nn
  refine ⟨decodesTo_encode (.ldImm x nn), writeV_completes x nn s, decodesTo_encode (.addImm x nn), ?_⟩
  obtain ⟨t, ht, hpc, hx, hframe⟩ := writeV_completes x (add8 (readV x s) nn) s
  exact ⟨t, ht, hpc, by rw [hx, add8_toNat], hframe⟩

/-- Settles O30: the register is written with the copy, or with the two registers combined bit by bit. -/
theorem copyAndLogic : Obligations.CopyAndLogic := by
  intro s x y
  refine ⟨decodesTo_encode (.ldReg x y), writeV_completes x (readV y s) s, decodesTo_encode (.andReg x y), ?_,
    decodesTo_encode (.xorReg x y), ?_⟩
  · obtain ⟨t, ht, hpc, hx, hframe⟩ := writeV_completes x (readV x s &&& readV y s) s
    exact ⟨t, ht, hpc, fun b => by rw [hx, BitVec.getLsbD_and], hframe⟩
  · obtain ⟨t, ht, hpc, hx, hframe⟩ := writeV_completes x (readV x s ^^^ readV y s) s
    exact ⟨t, ht, hpc, fun b => by rw [hx, BitVec.getLsbD_xor], hframe⟩

/-- Settles O31: OR_8XY1 alone decides between the write and the fault. -/
theorem orWhenEnabled : Obligations.OrWhenEnabled := by
  intro s x y
  refine ⟨decodesTo_encode (.orReg x y), fun hon => ?_, fun hoff => execOrReg_fault.2 ⟨hoff, rfl⟩⟩
  refine ⟨_, execOrReg_next.2 ⟨hon, rfl⟩, rfl, fun b => ?_, (onlyChanges_writeV x _ s).advance⟩
  rw [readV_advance, readV_writeV_same, BitVec.getLsbD_or]

/-! ### A result, then its flag (R141) -/

theorem OnlyChanges.mono {P Q : Part → Prop} {s t : State} (h : OnlyChanges P s t) (hPQ : ∀ p, P p → Q p) :
    OnlyChanges Q s t := fun p hp => h p (mt (hPQ p) hp)

@[simp] theorem readV_VF_writeResultThenFlag (x : Reg) (r f : Byte) (s : State) :
    readV VF (writeResultThenFlag x r f s) = f := readV_writeV_same VF f _

theorem readV_writeResultThenFlag {x : Reg} (hx : x ≠ VF) (r f : Byte) (s : State) :
    readV x (writeResultThenFlag x r f s) = r := by
  rw [writeResultThenFlag, readV_writeV_ne hx, readV_writeV_same]

theorem onlyChanges_writeResultThenFlag (x : Reg) (r f : Byte) (s : State) :
    OnlyChanges (fun p => p = .reg x ∨ p = .reg VF) s (writeResultThenFlag x r f s) :=
  ((onlyChanges_writeV x r s).trans (onlyChanges_writeV VF f _)).mono fun _ => Or.symm

/-- What the sum and the differences do (R148, R149, R151): the flag is what VF holds, whatever the destination. -/
theorem writeResultThenFlag_completes (x : Reg) (r f : Byte) (s : State) :
    ∃ t, (.next (advance (writeResultThenFlag x r f s)) : Result) = .next t ∧ t.pc = s.pc + 2 ∧
      (x ≠ VF → readV x t = r) ∧ readV VF t = f ∧ OnlyChanges (fun p => p = .reg x ∨ p = .reg VF) s t :=
  ⟨_, rfl, rfl, fun hx => readV_writeResultThenFlag hx r f s, readV_VF_writeResultThenFlag x r f s,
    (onlyChanges_writeResultThenFlag x r f s).advance⟩

/-- Settles O32: the result is the wrapping sum and the flag its carry. -/
theorem addWithCarry : Obligations.AddWithCarry := by
  intro s x y
  obtain ⟨t, ht, hpc, hx, hVF, hframe⟩ := writeResultThenFlag_completes x (add8 (readV x s) (readV y s))
    (carryFlag (readV x s) (readV y s)) s
  exact ⟨decodesTo_encode (.addReg x y), t, ht, hpc, fun hne => by rw [hx hne, add8_toNat],
    by rw [hVF, carryFlag_eq], hframe⟩

/-- What a subtraction of `b` from `a` does (R149, R151). -/
theorem sub8_completes (x : Reg) (a b : Byte) (s : State) :
    ∃ t, (.next (advance (writeResultThenFlag x (sub8 a b) (greaterFlag a b) s)) : Result) = .next t ∧
      t.pc = s.pc + 2 ∧ (x ≠ VF → (readV x t).toNat = (a.toNat + 256 - b.toNat) % 256) ∧
      readV VF t = (if b.toNat < a.toNat then 1 else 0) ∧
      OnlyChanges (fun p => p = .reg x ∨ p = .reg VF) s t := by
  obtain ⟨t, ht, hpc, hx, hVF, hframe⟩ := writeResultThenFlag_completes x (sub8 a b) (greaterFlag a b) s
  exact ⟨t, ht, hpc, fun hne => by rw [hx hne, sub8_toNat], by rw [hVF, greaterFlag_eq], hframe⟩

/-- Settles O33: `Vy` is subtracted from `Vx`. -/
theorem subtractWithFlag : Obligations.SubtractWithFlag := fun s x y =>
  ⟨decodesTo_encode (.sub x y), sub8_completes x (readV x s) (readV y s) s⟩

/-- Settles O34: `Vx` is subtracted from `Vy`. -/
theorem subtractReversedWithFlag : Obligations.SubtractReversedWithFlag := fun s x y =>
  ⟨decodesTo_encode (.subn x y), sub8_completes x (readV y s) (readV x s) s⟩

/-! ### The shifts, under both orders of the two writes (R141) -/

theorem writeShift_flagWins {s : State} (h : s.cfg.vfOrder = .flagWins) (x : Reg) (f : Byte → Byte) (flag : Byte) :
    writeShift x f flag s = writeResultThenFlag x (f (readV x s)) flag s := by
  simp only [writeShift, h]

theorem writeShift_statementOrder {s : State} (h : s.cfg.vfOrder = .statementOrder) (x : Reg) (f : Byte → Byte)
    (flag : Byte) : writeShift x f flag s = writeV x (f (readV x (writeV VF flag s))) (writeV VF flag s) := by
  simp only [writeShift, h]

theorem writeV_comm {x y : Reg} (h : x ≠ y) (a b : Byte) (s : State) :
    writeV x a (writeV y b s) = writeV y b (writeV x a s) := by
  simp only [writeV, Vector.set_comm b a (BitVec.toNat_ne.1 h.symm)]

/-- The two orders differ only when the destination is VF. -/
theorem writeShift_of_ne_VF {x : Reg} (hx : x ≠ VF) (f : Byte → Byte) (flag : Byte) (s : State) :
    writeShift x f flag s = writeResultThenFlag x (f (readV x s)) flag s := by
  cases h : s.cfg.vfOrder with
  | flagWins => exact writeShift_flagWins h x f flag
  | statementOrder =>
    rw [writeShift_statementOrder h, readV_writeV_ne hx, writeV_comm hx, writeResultThenFlag]

theorem onlyChanges_writeShift (x : Reg) (f : Byte → Byte) (flag : Byte) (s : State) :
    OnlyChanges (fun p => p = .reg x ∨ p = .reg VF) s (writeShift x f flag s) := by
  cases h : s.cfg.vfOrder with
  | flagWins =>
    rw [writeShift_flagWins h]
    exact onlyChanges_writeResultThenFlag x _ flag s
  | statementOrder =>
    rw [writeShift_statementOrder h]
    exact (onlyChanges_writeV VF flag s).trans (onlyChanges_writeV x _ _)

/-- What a shift does (R150, R152): into VF itself it leaves the flag, under `statement_order` the flag shifted. -/
theorem writeShift_completes (x : Reg) (f : Byte → Byte) (flag : Byte) (s : State) :
    ∃ t, (.next (advance (writeShift x f flag s)) : Result) = .next t ∧ t.pc = s.pc + 2 ∧
      (x ≠ VF → readV x t = f (readV x s) ∧ readV VF t = flag) ∧
      (x = VF → s.cfg.vfOrder = .flagWins → readV VF t = flag) ∧
      (x = VF → s.cfg.vfOrder = .statementOrder → readV VF t = f flag) ∧
      OnlyChanges (fun p => p = .reg x ∨ p = .reg VF) s t := by
  refine ⟨_, rfl, ?_, fun hx => ?_, fun _ h => ?_, fun hx h => ?_, (onlyChanges_writeShift x f flag s).advance⟩
  · rw [advance_pc, writeShift_eq]
  · rw [readV_advance, readV_advance, writeShift_of_ne_VF hx]
    exact ⟨readV_writeResultThenFlag hx _ flag s, readV_VF_writeResultThenFlag x _ flag s⟩
  · rw [readV_advance, writeShift_flagWins h, readV_VF_writeResultThenFlag]
  · rw [readV_advance, hx, writeShift_statementOrder h, readV_writeV_same, readV_writeV_same]

/-- Settles O35: the shift halves, and halves the flag itself to 0. -/
theorem shiftRightWithFlag : Obligations.ShiftRightWithFlag := by
  intro s x y
  obtain ⟨t, ht, hpc, hne, hwins, horder, hframe⟩ := writeShift_completes x shr1 (lowBit (readV x s)) s
  refine ⟨decodesTo_encode (.shr x y), t, ht, hpc, fun hx => ?_, fun hx h => ?_, fun hx h => ?_, hframe⟩
  · obtain ⟨hresult, hflag⟩ := hne hx
    rw [hresult, hflag]
    exact ⟨shr1_toNat _, lowBit_toNat _⟩
  · rw [hwins hx h, lowBit_toNat, hx]
  · rw [horder hx h, shr1_lowBit]

/-- Settles O36: the shift doubles, and doubles the flag itself without wrapping. -/
theorem shiftLeftWithFlag : Obligations.ShiftLeftWithFlag := by
  intro s x y
  obtain ⟨t, ht, hpc, hne, hwins, horder, hframe⟩ := writeShift_completes x shl1 (highBit (readV x s)) s
  refine ⟨decodesTo_encode (.shl x y), t, ht, hpc, fun hx => ?_, fun hx h => ?_, fun hx h => ?_, hframe⟩
  · obtain ⟨hresult, hflag⟩ := hne hx
    rw [hresult, hflag]
    exact ⟨shl1_toNat _, highBit_toNat _⟩
  · rw [hwins hx h, highBit_toNat, hx]
  · rw [horder hx h, shl1_highBit_toNat, hx]

/-! ### The random draw (10_state R32) -/

/-- A draw moves the generator alone. -/
theorem onlyChanges_randomByte (s : State) : OnlyChanges (· = .generator) s (randomByte s).2 := by
  intro p hp
  cases p with
  | generator => exact absurd rfl hp
  | _ => exact rfl

/-- Settles O37: the masked draw is written to the register, after the one draw that moves the generator. -/
theorem randomByteIsMasked : Obligations.RandomByteIsMasked := by
  intro s x nn
  refine ⟨decodesTo_encode (.rnd x nn), _, rfl, rfl, readV_writeV_same x _ _, fun b hb => ?_, rfl, rfl,
    ((onlyChanges_randomByte s).trans (onlyChanges_writeV x _ _)).advance⟩
  rw [readV_advance, readV_writeV_same, BitVec.getLsbD_and, hb, Bool.and_false]

end Sys2Proof.Machine

/-! PROOFS. The family 43_index_memory: the index register (R170 to R172), the bytes that Fx33 and Fx55 store inside
memory and up to its end (R173, R174, 60_exceptions R217), and the registers that Fx65 loads (R175). -/

namespace Sys2Proof.Machine

/-! ### The index register (R170 to R172) -/

/-- Five times a byte fits `I`, so nothing is masked (R172). -/
theorem glyphAddress_toNat (v : Byte) : (glyphAddress v).toNat = v.toNat * 5 := by
  have hv := v.isLt
  rw [glyphAddress, BitVec.toNat_ofNat]
  omega

/-- Past accesses inside memory the advanced `I` does not wrap (R174, R175). -/
theorem advanceIndex_I_toNat {a : Word} {x : Reg} (h : a.toNat + regCount x ≤ memSize) (s : State) :
    (advanceIndex a x s).I.toNat = a.toNat + regCount x := by
  rw [advanceIndex_I, BitVec.toNat_ofNat, Nat.mod_eq_of_lt (h.trans_lt (by decide))]

theorem onlyChanges_index (a : Word) (s : State) : OnlyChanges (· = .index) s { s with I := a } := by
  intro p hp
  cases p with
  | index => exact absurd rfl hp
  | _ => exact rfl

/-- What an instruction that writes `I` does. -/
theorem writeI_completes (a : Word) (s : State) :
    ∃ t, (.next (advance { s with I := a }) : Result) = .next t ∧ t.pc = s.pc + 2 ∧ t.I = a ∧
      OnlyChanges (· = .index) s t :=
  ⟨_, rfl, rfl, rfl, (onlyChanges_index a s).advance⟩

/-- Settles O38: neither the immediate nor the glyph address loses a bit in `I`. -/
theorem indexLoads : Obligations.IndexLoads := by
  intro s
  refine ⟨fun nnn => ⟨decodesTo_encode (.ldI nnn), ?_⟩, fun x => ⟨decodesTo_encode (.ldF x), ?_⟩⟩
  · obtain ⟨t, ht, hpc, hI, hframe⟩ := writeI_completes (zextImm nnn) s
    exact ⟨t, ht, hpc, by rw [hI, zextImm_toNat], hframe⟩
  · obtain ⟨t, ht, hpc, hI, hframe⟩ := writeI_completes (glyphAddress (readV x s)) s
    exact ⟨t, ht, hpc, by rw [hI, glyphAddress_toNat], hframe⟩

/-- Settles O39: the sum is written when it fits `I`, and is the fault's address when it does not. -/
theorem indexAddIsUnmasked : Obligations.IndexAddIsUnmasked := by
  intro s x
  refine ⟨decodesTo_encode (.addI x), fun hfits => ?_, fun hover => execAddI_fault.2 ⟨hover, rfl⟩⟩
  refine ⟨_, execAddI_next.2 ⟨hfits, rfl⟩, rfl, ?_, (onlyChanges_index _ s).advance⟩
  exact (BitVec.toNat_ofNat _ _).trans (Nat.mod_eq_of_lt (Nat.lt_succ_of_le hfits))

/-! ### Bytes stored in order (20_memory R58, 60_exceptions R217) -/

/-- `mem` is the memory of `s` with the first `len` of the bytes `bs` at `base` and up. -/
def BytesStored (s : State) (base len : Nat) (bs : List Byte) (mem : Memory) : Prop :=
  ∀ a, mem.read a = if base ≤ a ∧ a < base + len then bs.getD (a - base) 0 else s.mem.read a

namespace BytesStored

variable {s : State} {base len : Nat} {bs : List Byte} {mem : Memory}

/-- Each stored byte stands at its address. -/
theorem read {k : Nat} (h : BytesStored s base len bs mem) (hk : k < len) : mem.read (base + k) = bs.getD k 0 := by
  rw [h, if_pos (by omega), Nat.add_sub_cancel_left]

/-- The frame: the stored bytes alone. -/
theorem onlyChanges (h : BytesStored s base len bs mem) : OnlyChanges (bytesAt base len) s { s with mem := mem } := by
  intro p hp
  cases p with
  | byte a =>
    refine (h a).trans (if_neg fun ⟨hbase, hend⟩ => hp ⟨a - base, by omega, ?_⟩)
    rw [Nat.add_sub_cancel' hbase]
  | _ => exact rfl

end BytesStored

/-- A run of writes inside memory stores all its bytes. -/
theorem storeBytes_completes {base : Nat} {bs : List Byte} {s : State} (hwf : s.mem.wf = true)
    (h : base + bs.length ≤ memSize) :
    ∃ mem, BytesStored s base bs.length bs mem ∧ storeBytes base bs s = .done () { s with mem := mem } := by
  obtain ⟨t, ht⟩ := (storeBytes_total base bs s).1 (.inr h)
  obtain ⟨-, hframe, hmem⟩ := storeBytes_done ht
  exact ⟨t.mem, (hmem hwf).2, by rw [ht, ← hframe]⟩

/-- A run of writes past memory stops at the first bad address, with the bytes before it stored. -/
theorem storeBytes_stops {base : Nat} {bs : List Byte} {s : State} (hwf : s.mem.wf = true) (hbs : bs ≠ [])
    (h : memSize < base + bs.length) :
    ∃ mem, BytesStored s base (goodCount base) bs mem ∧
      storeBytes base bs s = .stopped (firstBad base) { s with mem := mem } := by
  obtain ⟨e, t, ht⟩ := (storeBytes_total base bs s).2 hbs h
  obtain ⟨-, rfl, hframe, hmem⟩ := storeBytes_stopped ht
  refine ⟨t.mem, fun a => ?_, by rw [ht, ← hframe]; rfl⟩
  have hrange : base ≤ a ∧ a < base + goodCount base ↔ base ≤ a ∧ a < memSize := by
    simp only [goodCount]; omega
  simp only [(hmem hwf).2 a, hrange]

/-! ### Fx33 (R173) -/

/-- The digits, hundreds first, are those of the value written in base ten. -/
theorem bcdDigits_getD_toNat (v : Byte) {k : Nat} (hk : k < 3) :
    ((bcdDigits v).getD k 0).toNat = v.toNat / 10 ^ (2 - k) % 10 := by
  have hv := v.isLt
  match k, hk with
  | 0, _ | 1, _ | 2, _ => simp [bcdDigits]; omega

theorem execLdB_completes {x : Reg} {s : State} (hwf : s.mem.wf = true) (h : s.I.toNat + 3 ≤ memSize) :
    ∃ mem, BytesStored s s.I.toNat 3 (bcdDigits (readV x s)) mem ∧
      execLdB x s = .next (advance { s with mem := mem }) := by
  obtain ⟨mem, hstored, hrun⟩ := storeBytes_completes (bs := bcdDigits (readV x s)) hwf h
  exact ⟨mem, hstored, execLdB_next.2 ⟨_, hrun, rfl⟩⟩

theorem execLdB_faults {x : Reg} {s : State} (hwf : s.mem.wf = true) (h : memSize < s.I.toNat + 3) :
    ∃ mem, BytesStored s s.I.toNat (goodCount s.I.toNat) (bcdDigits (readV x s)) mem ∧
      execLdB x s =
        .fault (.addressing s.pc (some (encode (.ldB x))) (firstBad s.I.toNat) { s with mem := mem }) := by
  obtain ⟨mem, hstored, hrun⟩ := storeBytes_stops (bs := bcdDigits (readV x s)) hwf (List.cons_ne_nil _ _) h
  exact ⟨mem, hstored, conclude_fault.2 ⟨_, _, hrun, rfl⟩⟩

/-- Settles O40: the three bytes stored are the digits, and no byte has more than two hundreds. -/
theorem bcdStoresThreeDigits : Obligations.BcdStoresThreeDigits := by
  intro s x hwf h
  obtain ⟨mem, hstored, hexec⟩ := execLdB_completes (x := x) hwf h
  have hdigit {k : Nat} (hk : k < 3) : (mem.read (s.I.toNat + k)).toNat = (readV x s).toNat / 10 ^ (2 - k) % 10 := by
    rw [hstored.read hk, bcdDigits_getD_toNat _ hk]
  have hhundreds : (readV x s).toNat / 100 % 10 = (readV x s).toNat / 100 := by
    have hv := (readV x s).isLt
    omega
  refine ⟨_, hexec, rfl, (hdigit (k := 0) (by decide)).trans hhundreds, hdigit (by decide), ?_,
    hstored.onlyChanges.advance⟩
  simpa using hdigit (k := 2) (by decide)

/-- Settles O41: fewer than three digits fit before the end of memory, and those are stored. -/
theorem bcdFaultKeepsTheDigitsStored : Obligations.BcdFaultKeepsTheDigitsStored := by
  intro s x hwf h
  obtain ⟨mem, hstored, hexec⟩ := execLdB_faults (x := x) hwf h
  refine ⟨_, hexec, rfl, fun k hk => ?_, hstored.onlyChanges⟩
  have hk3 : k < 3 := by simp only [goodCount, memSize] at hk; omega
  rw [hstored.read hk, bcdDigits_getD_toNat _ hk3]

/-! ### Fx55 (R174) -/

theorem execStore_completes {x : Reg} {s : State} (hwf : s.mem.wf = true) (h : s.I.toNat + regCount x ≤ memSize) :
    ∃ mem, BytesStored s s.I.toNat (regCount x) (regsUpTo x s) mem ∧
      execStore x s = .next (advance (advanceIndex s.I x { s with mem := mem })) := by
  rw [← regsUpTo_length x s] at h ⊢
  obtain ⟨mem, hstored, hrun⟩ := storeBytes_completes hwf h
  exact ⟨mem, hstored, execStore_next.2 ⟨_, hrun, rfl⟩⟩

theorem execStore_faults {x : Reg} {s : State} (hwf : s.mem.wf = true) (h : memSize < s.I.toNat + regCount x) :
    ∃ mem, BytesStored s s.I.toNat (goodCount s.I.toNat) (regsUpTo x s) mem ∧
      execStore x s =
        .fault (.addressing s.pc (some (encode (.store x))) (firstBad s.I.toNat) { s with mem := mem }) := by
  rw [← regsUpTo_length x s] at h
  have hne : regsUpTo x s ≠ [] := List.ne_nil_of_length_pos (by simp [regCount])
  obtain ⟨mem, hstored, hrun⟩ := storeBytes_stops hwf hne h
  exact ⟨mem, hstored, conclude_fault.2 ⟨_, _, hrun, rfl⟩⟩

/-- Settles O42: the bytes stored are the registers, and then `I` moves past them. -/
theorem storeDumpsTheRegisters : Obligations.StoreDumpsTheRegisters := by
  intro s x hwf h
  obtain ⟨mem, hstored, hexec⟩ := execStore_completes (x := x) hwf h
  refine ⟨_, hexec, rfl, fun r hr => ?_, advanceIndex_I_toNat h s,
    (hstored.onlyChanges.trans (onlyChanges_index _ _)).advance⟩
  exact (hstored.read (Nat.lt_succ_of_le hr)).trans (regsUpTo_getD s hr)

/-- Settles O43: fewer registers than `V0` to `Vx` fit before the end of memory, and those are stored. -/
theorem storeFaultKeepsTheBytesStored : Obligations.StoreFaultKeepsTheBytesStored := by
  intro s x hwf h
  obtain ⟨mem, hstored, hexec⟩ := execStore_faults (x := x) hwf h
  refine ⟨_, hexec, rfl, fun r hr => ?_, hstored.onlyChanges⟩
  have hrx : r.toNat ≤ x.toNat := by simp only [goodCount, memSize] at hr; omega
  exact (hstored.read hr).trans (regsUpTo_getD s hrx)

/-! ### Fx65 (R175) -/

/-- `V` is the register file of `s` with the bytes from `base` up in its first `len` registers. -/
def RegsLoaded (s : State) (base len : Nat) (V : Vector Byte 16) : Prop :=
  ∀ r : Reg, readV r { s with V := V } = if r.toNat < len then s.mem.read (base + r.toNat) else readV r s

namespace RegsLoaded

variable {s : State} {base len : Nat} {V : Vector Byte 16}

/-- Each loaded register holds its byte. -/
theorem readV_eq {r : Reg} (h : RegsLoaded s base len V) (hr : r.toNat < len) :
    readV r { s with V := V } = s.mem.read (base + r.toNat) := by
  rw [h, if_pos hr]

/-- The frame: the loaded registers alone. -/
theorem onlyChanges (h : RegsLoaded s base len V) :
    OnlyChanges (fun p => ∃ r : Reg, r.toNat < len ∧ p = .reg r) s { s with V := V } := by
  intro p hp
  cases p with
  | reg r => exact (h r).trans (if_neg fun hr => hp ⟨r, hr, rfl⟩)
  | _ => exact rfl

end RegsLoaded

theorem execLoad_completes {x : Reg} {s : State} (h : s.I.toNat + regCount x ≤ memSize) :
    ∃ V, RegsLoaded s s.I.toNat (regCount x) V ∧
      execLoad x s = .next (advance (advanceIndex s.I x { s with V := V })) := by
  obtain ⟨t, ht⟩ := (loadRegs_total (regCount_le x) s).1 (.inr h)
  obtain ⟨-, hframe, hV⟩ := loadRegs_done (regCount_le x) ht
  refine ⟨t.V, fun r => ?_, execLoad_next.2 ⟨t, ht, by rw [← hframe]⟩⟩
  rw [← hframe, hV]
  simp only [Nat.zero_le, true_and, Nat.zero_add, Nat.sub_zero]

theorem execLoad_faults {x : Reg} {s : State} (h : memSize < s.I.toNat + regCount x) :
    ∃ V, RegsLoaded s s.I.toNat (goodCount s.I.toNat) V ∧
      execLoad x s =
        .fault (.addressing s.pc (some (encode (.load x))) (firstBad s.I.toNat) { s with V := V }) := by
  obtain ⟨e, t, ht⟩ := (loadRegs_total (regCount_le x) s).2 (Nat.succ_ne_zero _) h
  obtain ⟨-, rfl, hframe, hV⟩ := loadRegs_stopped (regCount_le x) ht
  refine ⟨t.V, fun r => ?_, conclude_fault.2 ⟨_, t, ht, by rw [hframe]; rfl⟩⟩
  have hrange : 0 ≤ r.toNat ∧ s.I.toNat + (r.toNat - 0) < memSize ∧ r.toNat < 0 + regCount x ↔
      r.toNat < goodCount s.I.toNat := by
    simp only [goodCount]; omega
  rw [← hframe, hV]
  simp only [hrange]
  rw [Nat.sub_zero]

/-- Settles O44: the registers are loaded, and then `I` moves past their bytes. -/
theorem loadFillsTheRegisters : Obligations.LoadFillsTheRegisters := by
  intro s x h
  obtain ⟨V, hloaded, hexec⟩ := execLoad_completes (x := x) h
  refine ⟨_, hexec, rfl, fun r hr => hloaded.readV_eq (Nat.lt_succ_of_le hr), advanceIndex_I_toNat h s, ?_⟩
  refine (hloaded.onlyChanges.trans (onlyChanges_index _ _)).advance.mono fun p => Or.imp_right ?_
  rintro ⟨r, hr, rfl⟩
  exact ⟨r, Nat.le_of_lt_succ hr, rfl⟩

/-- Settles O45: the registers whose bytes are inside memory are loaded. -/
theorem loadFaultKeepsTheRegistersLoaded : Obligations.LoadFaultKeepsTheRegistersLoaded := by
  intro s x h
  obtain ⟨V, hloaded, hexec⟩ := execLoad_faults (x := x) h
  exact ⟨_, hexec, rfl, fun r hr => hloaded.readV_eq hr, hloaded.onlyChanges⟩

/-- Settles O46: the load reads, inside memory, the bytes that the store left there. -/
theorem storeThenLoadRoundTrips : Obligations.StoreThenLoadRoundTrips := by
  intro s t x regs hwf h
  obtain ⟨hbound, hread⟩ := execStore_next_read hwf h
  obtain ⟨V, hloaded, hexec⟩ := execLoad_completes (s := { t with I := s.I, V := regs }) hbound
  refine ⟨_, hexec, fun r hr => ?_, ?_, fun _ => rfl⟩
  · exact (hloaded.readV_eq (Nat.lt_succ_of_le hr)).trans (hread r hr)
  · obtain ⟨u, -, rfl⟩ := execStore_next.1 h
    rfl

end Sys2Proof.Machine

/-! PROOFS. The family 44_timers_keypad: the skips on a key and their fault (R190 to R192), the wait for a key (R194),
and the moves from and to the timers (R193, R195, R196). -/

namespace Sys2Proof.Machine

/-! ### The keypad -/

/-- Settles O49: a code below 16 decides the skip, any other is the fault's. -/
theorem keySkips : Obligations.KeySkips := by
  intro s x
  refine ⟨decodesTo_encode (.skp x), decodesTo_encode (.sknp x), fun hcode => ⟨?_, ?_⟩, fun hcode => ⟨?_, ?_⟩⟩
  · exact ⟨_, execSkp_next.2 ⟨hcode, rfl⟩, skipIf_pc _ s, onlyChanges_skipIf _ s⟩
  · refine ⟨_, execSknp_next.2 ⟨hcode, rfl⟩, ?_, onlyChanges_skipIf _ s⟩
    simp only [skipIf_pc, Bool.not_eq_true', ← Bool.not_eq_true, ite_not]
  · exact execSkp_fault.2 ⟨hcode, rfl⟩
  · exact execSknp_fault.2 ⟨hcode, rfl⟩

/-- Settles O50: the search from key 0 up ends at the lowest pressed key, or finds none. -/
theorem keyWaitTakesTheLowestKey : Obligations.KeyWaitTakesTheLowestKey := by
  intro s x
  refine ⟨decodesTo_encode (.ldVxK x), fun k hk hpressed hlowest => ?_, fun hnone => ?_⟩
  · have hfirst : firstPressed s = some k := firstPressed_some.2 ⟨hk, hpressed, hlowest⟩
    obtain ⟨t, ht, hpc, hx, hframe⟩ := writeV_completes x (BitVec.ofNat 8 k) s
    refine ⟨t, (execLdVxK_next.2 (.inr ⟨k, hfirst, rfl⟩)).trans ht, hpc, ?_, hframe⟩
    rw [hx, BitVec.toNat_ofNat, Nat.mod_eq_of_lt (hk.trans (by decide))]
  · exact execLdVxK_next.2 (.inl ⟨firstPressed_none.2 hnone, rfl⟩)

/-! ### The timers -/

theorem onlyChanges_delay (b : Byte) (s : State) : OnlyChanges (· = .delay) s { s with DT := b } := by
  intro p hp
  cases p with
  | delay => exact absurd rfl hp
  | _ => exact rfl

theorem onlyChanges_sound (b : Byte) (s : State) : OnlyChanges (· = .sound) s { s with ST := b } := by
  intro p hp
  cases p with
  | sound => exact absurd rfl hp
  | _ => exact rfl

/-- Settles O51: each move writes its one destination and advances. -/
theorem timerMoves : Obligations.TimerMoves := fun s x =>
  ⟨decodesTo_encode (.ldVxDt x), writeV_completes x s.DT s,
    decodesTo_encode (.ldDtVx x), ⟨_, rfl, rfl, rfl, (onlyChanges_delay (readV x s) s).advance⟩,
    decodesTo_encode (.ldStVx x), ⟨_, rfl, rfl, rfl, (onlyChanges_sound (readV x s) s).advance⟩⟩

end Sys2Proof.Machine

/-! PROOFS. The family 60_exceptions: what a STEP answers and what a fault leaves (R210 to R219), and the host's
operations beside STEP (R222 to R226). -/

namespace Sys2Proof.Machine

/-! ### A session of host operations keeps the invariant (R224, R225) -/

theorem setKey_of_lt {k : Nat} (hk : k < 16) (pressed : Bool) (s : State) :
    setKey k pressed s = .ok { s with keys := s.keys.set k pressed hk } := dif_pos hk

theorem setKey_of_ge {k : Nat} (hk : 16 ≤ k) (pressed : Bool) (s : State) :
    setKey k pressed s = .error (.keypadUsage k) := dif_neg (Nat.not_lt.2 hk)

/-- The invariant does not speak of the timers. -/
theorem Inv.tick {s : State} (hs : Inv s) : Inv (tick s) :=
  ⟨hs.mem_wf, hs.stack_le, hs.stack_addr, hs.pc_le⟩

/-- The invariant does not speak of the keypad. -/
theorem Inv.performKey {s : State} (hs : Inv s) (k : Nat) (pressed : Bool) :
    Inv (performKey (setKey k pressed s) s).2 := by
  rcases Nat.lt_or_ge k 16 with hk | hk
  · rw [setKey_of_lt hk]
    exact ⟨hs.mem_wf, hs.stack_le, hs.stack_addr, hs.pc_le⟩
  · rw [setKey_of_ge hk]
    exact hs

/-- A STEP as the host sees it goes on from the next state or from the one the fault leaves. -/
theorem Inv.performStep {s : State} (hs : Inv s) : Inv (performStep s).2 := by
  obtain ⟨hnext, hfault⟩ := stepKeepsInvariant s hs
  unfold Machine.performStep
  cases h : step s with
  | next t => exact hnext t h
  | fault f => exact hfault f h
  | refused r => exact hs

theorem Inv.perform {s : State} (hs : Inv s) (op : HostOp) : Inv (perform op s).2 := by
  cases op with
  | step => exact hs.performStep
  | tick => exact hs.tick
  | keyDown k => exact hs.performKey k true
  | keyUp k => exact hs.performKey k false
  | fbSnapshot | memSnapshot | soundLevel => exact hs

/-- Settles O17, by induction on the operations: each one keeps the invariant, and the rest run from where it ends. -/
theorem sessionKeepsInvariant : Obligations.SessionKeepsInvariant := by
  intro ops
  induction ops with
  | nil => exact fun s hs => hs
  | cons op ops ih => exact fun s hs => ih (perform op s).2 (hs.perform op)

/-! ### What a STEP answers (R210, R212) -/

theorem conclude_ne_refused {α : Type} (run : Run α) (i : Instr) (k : α → State → State) (r : Refusal) :
    run.conclude i k ≠ .refused r := by
  cases run <;> nofun

/-- Every arm of the execute phase completes or raises a fault. -/
theorem exec_ne_refused (i : Instr) (s : State) (r : Refusal) : exec i s ≠ .refused r := by
  cases i with
  | ret => simp only [exec, execRet]; split <;> nofun
  | call => simp only [exec, execCall]; split <;> nofun
  | orReg => simp only [exec, execOrReg]; split <;> nofun
  | addI => simp only [exec, execAddI]; split <;> nofun
  | skp => simp only [exec, execSkp]; split <;> nofun
  | sknp => simp only [exec, execSknp]; split <;> nofun
  | ldVxK => simp only [exec, execLdVxK]; split <;> nofun
  | drw | ldB | store | load => exact conclude_ne_refused _ _ _ r
  | _ => nofun

/-- Settles O10: a STEP faults in the fetch or in the decode phase, or ends as the execute phase does. -/
theorem stepIsNeverRefused : Obligations.StepIsNeverRefused := by
  intro s r
  cases hf : fetch16 s with
  | error e => rw [step_of_fetch_error hf]; nofun
  | ok w =>
    cases hd : decode s.cfg w with
    | error e => rw [step_of_decode_error hf hd]; nofun
    | ok i => rw [step_eq_exec hf hd]; exact exec_ne_refused i s r

/-- Settles O8: the decode phase refuses a word that no row matches. -/
theorem unmatchedWordRaisesUnknownOpcode : Obligations.UnmatchedWordRaisesUnknownOpcode := by
  intro s w hf hrows
  have hunrecognised : Unrecognised s.cfg w rows := fun r hr hmatch => absurd hmatch (Bool.eq_false_iff.1 (hrows r hr))
  obtain ⟨e, hd⟩ := decode_error_iff.2 hunrecognised
  exact step_of_decode_error hf hd

/-! ### What a fault leaves (R217) -/

theorem execLdVxK_ne_fault (x : Reg) (s : State) (f : Fault) : execLdVxK x s ≠ .fault f := by
  unfold execLdVxK
  split <;> nofun

/-- A faulting Fx65 stops before VF, which only the last of sixteen loads would reach. -/
theorem loadRegs_stopped_readV_VF {base e : Nat} {x : Reg} {s u : State}
    (h : loadRegs base 0 (regCount x) s = .stopped e u) : readV VF u = readV VF s := by
  obtain ⟨hpast, -, -, hV⟩ := loadRegs_stopped (regCount_le x) h
  have hcount := regCount_le x
  rw [hV, if_neg (by simp only [BitVec.toNat_ofNat]; omega)]

/-- A fault of the execute phase records the instruction's `pc`, and its instruction has not written VF. -/
theorem exec_fault_pc_VF {i : Instr} {s : State} {f : Fault} (h : exec i s = .fault f) :
    f.pc = s.pc ∧ readV VF f.left = readV VF s := by
  cases i with
  | ret => obtain ⟨-, rfl⟩ := execRet_fault.1 h; exact ⟨rfl, rfl⟩
  | call nnn => obtain ⟨-, rfl⟩ := execCall_fault.1 h; exact ⟨rfl, rfl⟩
  | orReg x y => obtain ⟨-, rfl⟩ := execOrReg_fault.1 h; exact ⟨rfl, rfl⟩
  | skp x => obtain ⟨-, rfl⟩ := execSkp_fault.1 h; exact ⟨rfl, rfl⟩
  | sknp x => obtain ⟨-, rfl⟩ := execSknp_fault.1 h; exact ⟨rfl, rfl⟩
  | addI x => obtain ⟨-, rfl⟩ := execAddI_fault.1 h; exact ⟨rfl, rfl⟩
  | ldVxK x => exact absurd h (execLdVxK_ne_fault x s f)
  | drw x y n =>
    obtain ⟨e, u, hu, rfl⟩ := execDrw_fault h
    obtain ⟨-, -, hframe, -⟩ := drawRows_stopped (count_le n) hu
    rw [hframe]; exact ⟨rfl, rfl⟩
  | ldB x =>
    obtain ⟨e, u, hu, rfl⟩ := execLdB_fault h
    obtain ⟨-, -, hframe, -⟩ := storeBytes_stopped hu
    rw [hframe]; exact ⟨rfl, rfl⟩
  | store x =>
    obtain ⟨e, u, hu, rfl⟩ := execStore_fault h
    obtain ⟨-, -, hframe, -⟩ := storeBytes_stopped hu
    rw [hframe]; exact ⟨rfl, rfl⟩
  | load x =>
    obtain ⟨e, u, hu, rfl⟩ := execLoad_fault h
    exact ⟨rfl, loadRegs_stopped_readV_VF hu⟩
  | _ =>
    have hnext : Host.Outcome.next _ = .fault f := h
    nomatch hnext

/-- Settles O11: a fault of the fetch or the decode phase changes nothing, and one of the execute phase registers,
screen and memory at most. -/
theorem faultLeavesControlState : Obligations.FaultLeavesControlState := by
  intro s f h
  obtain ⟨e, -, rfl⟩ | ⟨w, e, -, -, rfl⟩ | ⟨w, i, -, -, he⟩ := step_fault h
  · exact ⟨rfl, rfl, rfl, rfl, rfl, rfl, rfl, rfl, rfl, rfl⟩
  · exact ⟨rfl, rfl, rfl, rfl, rfl, rfl, rfl, rfl, rfl, rfl⟩
  · obtain ⟨hpc, hVF⟩ := exec_fault_pc_VF he
    obtain ⟨hleft, -⟩ := exec_fault_left he
    refine ⟨hpc, ?_, ?_, hVF, ?_⟩ <;> rw [hleft]
    exact ⟨rfl, rfl, rfl, rfl, rfl, rfl⟩

/-! ### A fault happens again (R219) -/

/-- The state with the keypad and the timers as the host has set them. -/
def withInputs (keys : Vector Bool 16) (dt st : Byte) (s : State) : State := { s with keys := keys, DT := dt, ST := st }

/-- Where a run of writes stops depends on its base and its length alone. -/
theorem storeBytes_stops_again {base base' e : Nat} {bs bs' : List Byte} {s u : State}
    (h : storeBytes base bs s = .stopped e u) (hbase : base' = base) (hlen : bs'.length = bs.length) (t : State) :
    ∃ l, storeBytes base' bs' t = .stopped e l ∧ l.pc = t.pc := by
  subst hbase
  obtain ⟨hpast, rfl, -⟩ := storeBytes_stopped h
  have hne : bs' ≠ [] := by
    rintro rfl
    obtain rfl := List.length_eq_zero_iff.1 hlen.symm
    nomatch h
  obtain ⟨e', l, hl⟩ := (storeBytes_total base' bs' t).2 hne (hlen ▸ hpast)
  obtain ⟨-, rfl, hframe, -⟩ := storeBytes_stopped hl
  exact ⟨l, hl, by rw [hframe]⟩

/-- Where a run of loads stops depends on its base and its length alone. -/
theorem loadRegs_stops_again {base base' k n e : Nat} {s u : State} (hk : k + n ≤ 16)
    (h : loadRegs base k n s = .stopped e u) (hbase : base' = base) (t : State) :
    ∃ l, loadRegs base' k n t = .stopped e l ∧ l.pc = t.pc := by
  subst hbase
  obtain ⟨hpast, rfl, -⟩ := loadRegs_stopped hk h
  have hne : n ≠ 0 := by rintro rfl; nomatch h
  obtain ⟨e', l, hl⟩ := (loadRegs_total hk t).2 hne hpast
  obtain ⟨-, rfl, hframe, -⟩ := loadRegs_stopped hk hl
  exact ⟨l, hl, by rw [hframe]⟩

/-- Where Dxyn's loop stops depends on its base and its number of rows alone. -/
theorem drawRows_stops_again {base base' cx cy cx' cy' n e : Nat} {any : Bool} {s u : State} (hn : n ≤ 32)
    (h : drawRows base cx cy 0 n any s = .stopped e u) (hbase : base' = base) (t : State) :
    ∃ l, drawRows base' cx' cy' 0 n any t = .stopped e l ∧ l.pc = t.pc := by
  subst hbase
  obtain ⟨hpast, rfl, -⟩ := drawRows_stopped hn h
  have hne : n ≠ 0 := by rintro rfl; nomatch h
  obtain ⟨e', l, hl⟩ := (drawRows_total hn any t).2 hne hpast
  obtain ⟨-, rfl, hframe, -⟩ := drawRows_stopped hn hl
  exact ⟨l, hl, by rw [hframe]⟩

/-- A run that stops, `pc` untouched, raises the fault with the address it stopped at. -/
theorem conclude_of_stops {α : Type} {run : Run α} {e : Nat} {t : State} {pc : Word} {i : Instr}
    {k : α → State → State} (h : ∃ l, run = .stopped e l ∧ l.pc = t.pc) (hpc : t.pc = pc) :
    ∃ l, run.conclude i k = .fault (.addressing pc (some (encode i)) e l) := by
  obtain ⟨l, rfl, hl⟩ := h
  exact ⟨l, by rw [← hpc, ← hl]; rfl⟩

/-- An instruction that faulted faults again from the state it left: neither its own writes nor the host's inputs reach
what its fault was decided on. -/
theorem exec_fault_again {i : Instr} {s : State} {f : Fault} (h : exec i s = .fault f) (keys : Vector Bool 16)
    (dt st : Byte) : ∃ l, exec i (withInputs keys dt st f.left) = .fault (f.withLeft l) := by
  obtain ⟨hleft, -⟩ := exec_fault_left h
  have hpc : (withInputs keys dt st f.left).pc = s.pc := (congrArg State.pc hleft :)
  have hI : (withInputs keys dt st f.left).I.toNat = s.I.toNat := (congrArg (·.I.toNat) hleft :)
  cases i with
  | ret => obtain ⟨hempty, rfl⟩ := execRet_fault.1 h; exact ⟨_, execRet_fault.2 ⟨hempty, rfl⟩⟩
  | call nnn => obtain ⟨hfull, rfl⟩ := execCall_fault.1 h; exact ⟨_, execCall_fault.2 ⟨hfull, rfl⟩⟩
  | orReg x y => obtain ⟨hoff, rfl⟩ := execOrReg_fault.1 h; exact ⟨_, execOrReg_fault.2 ⟨hoff, rfl⟩⟩
  | skp x => obtain ⟨hcode, rfl⟩ := execSkp_fault.1 h; exact ⟨_, execSkp_fault.2 ⟨hcode, rfl⟩⟩
  | sknp x => obtain ⟨hcode, rfl⟩ := execSknp_fault.1 h; exact ⟨_, execSknp_fault.2 ⟨hcode, rfl⟩⟩
  | addI x => obtain ⟨hsum, rfl⟩ := execAddI_fault.1 h; exact ⟨_, execAddI_fault.2 ⟨hsum, rfl⟩⟩
  | ldVxK x => exact absurd h (execLdVxK_ne_fault x s f)
  | drw x y n =>
    obtain ⟨e, u, hu, rfl⟩ := execDrw_fault h
    exact conclude_of_stops (drawRows_stops_again (count_le n) hu hI _) hpc
  | ldB x =>
    obtain ⟨e, u, hu, rfl⟩ := execLdB_fault h
    exact conclude_of_stops (storeBytes_stops_again hu hI (by rfl) _) hpc
  | store x =>
    obtain ⟨e, u, hu, rfl⟩ := execStore_fault h
    exact conclude_of_stops (storeBytes_stops_again hu hI (by simp only [regsUpTo_length]) _) hpc
  | load x =>
    obtain ⟨e, u, hu, rfl⟩ := execLoad_fault h
    exact conclude_of_stops (loadRegs_stops_again (regCount_le x) hu hI _) hpc
  | _ =>
    have hnext : Host.Outcome.next _ = .fault f := h
    nomatch hnext

/-- Settles O12: the next STEP fetches the same word, decodes it under the same configuration, and ends in the same
phase. -/
theorem faultRepeatsWhateverTheHostDoes : Obligations.FaultRepeatsWhateverTheHostDoes := by
  intro s f keys dt st h hfetch
  obtain ⟨e, hf, rfl⟩ | ⟨w, e, hf, hd, rfl⟩ | ⟨w, i, hf, hd, he⟩ := step_fault h
  · exact ⟨_, step_of_fetch_error (s := withInputs keys dt st s) hf⟩
  · exact ⟨_, step_of_decode_error (s := withInputs keys dt st s) hf hd⟩
  · obtain ⟨hleft, -⟩ := exec_fault_left he
    have hcfg : f.left.cfg = s.cfg := (congrArg State.cfg hleft :)
    obtain ⟨l, hl⟩ := exec_fault_again he keys dt st
    refine ⟨l, ?_⟩
    rw [← hl]
    exact step_eq_exec (s := withInputs keys dt st f.left) (hfetch.trans hf) (hcfg ▸ hd)

/-! ### TICK (R222) -/

theorem countDown_toNat (t : Byte) : (countDown t).toNat = t.toNat - 1 := by
  unfold countDown
  split
  · next hzero => simp [hzero]
  · next hpos => bv_omega

/-- Settles O58: TICK writes the two timers, each counted down. -/
theorem tickCountsDown : Obligations.TickCountsDown := fun s =>
  ⟨countDown_toNat s.DT, countDown_toNat s.ST, rfl,
    ((onlyChanges_delay (countDown s.DT) s).trans (onlyChanges_sound (countDown s.ST) _)).mono fun _ => Or.symm⟩

/-! ### Key events (R226) -/

theorem keyAt_set {keys : Vector Bool 16} {k : Nat} (hk : k < 16) (pressed : Bool) (j : Nat) :
    keyAt (keys.set k pressed hk) j = if j = k then pressed else keyAt keys j := by
  rw [keyAt, keyAt, Vector.toList_set, List.getD_eq_getElem?_getD, List.getD_eq_getElem?_getD, List.getElem?_set]
  by_cases hj : j = k
  · simp [hj, hk]
  · simp [hj, Ne.symm hj]

/-- Settles O59: a code below 16 sets its key, and any other is refused. -/
theorem keyEventsChangeOneKey : Obligations.KeyEventsChangeOneKey := by
  intro s k
  refine ⟨fun hk => ?_, fun hk => ?_⟩
  · exact ⟨_, _, setKey_of_lt hk true s, setKey_of_lt hk false s, keyAt_set hk true, keyAt_set hk false, rfl, rfl⟩
  · have hdown : keyDown k s = .error (.keypadUsage k) := setKey_of_ge hk true s
    have hup : keyUp k s = .error (.keypadUsage k) := setKey_of_ge hk false s
    exact ⟨hdown, hup, congrArg (performKey · s) hdown, congrArg (performKey · s) hup⟩

/-! ### Read-outs (R224) -/

/-- FB_SNAPSHOT holds the pixel of row `y` and column `x` at `y × 64 + x`. -/
theorem fbSnapshot_getElem? (s : State) (y : Fin 32) (x : Fin 64) :
    (fbSnapshot s)[y.val * 64 + x.val]? = some (if s.fb.pixel y x = true then 1 else 0) := by
  have hrow : Fin.ofNat 32 ((y.val * 64 + x.val) / 64) = y := Fin.ext (by simp only [Fin.val_ofNat]; omega)
  have hcolumn : Fin.ofNat 64 (y.val * 64 + x.val) = x := Fin.ext (by simp only [Fin.val_ofNat]; omega)
  rw [fbSnapshot, List.getElem?_map, List.getElem?_range (by omega), Option.map_some, hrow, hcolumn]

/-- MEM_SNAPSHOT holds each byte at its address. -/
theorem memSnapshot_getElem? (s : State) {a : Nat} (ha : a < memSize) : (memSnapshot s)[a]? = some (s.mem.read a) := by
  rw [memSnapshot, List.getElem?_map, List.getElem?_range ha, Option.map_some]

/-- Settles O60: each read-out is a list over the places it reads, in order, and the state is passed on. -/
theorem snapshotsReadTheState : Obligations.SnapshotsReadTheState := fun s =>
  ⟨⟨fbSnapshot s, rfl, by rw [fbSnapshot, List.length_map, List.length_range], fbSnapshot_getElem? s⟩,
    ⟨memSnapshot s, rfl, by rw [memSnapshot, List.length_map, List.length_range, memSize],
      fun _ => memSnapshot_getElem? s⟩, rfl⟩

end Sys2Proof.Machine

/-! PROOFS. The family 70_reset_and_hazards: what construction leaves and refuses (R240 to R244), the invariant at reset,
and the instructions that repeat without any change (R248, R250). -/

namespace Sys2Proof.Machine

/-! ### Instructions that leave the state as it is (R248, R250) -/

/-- On every machine, a step that changes nothing is repeated by any number of further steps. -/
theorem run_of_step_self {M : Host.Core} {s : M.State} (h : M.step s = .next s) (k : Nat) : M.run k s = .next s := by
  induction k with
  | zero => rfl
  | succ k ih => rw [Host.Core.run, h]; exact ih

/-- Settles O13: the target is the `pc` that the state holds already, so one STEP changes nothing. -/
theorem selfJumpIsAFixedPoint : Obligations.SelfJumpIsAFixedPoint := by
  intro k s nnn hfetch htarget
  have hpc : zextImm nnn = s.pc := BitVec.eq_of_toNat_eq ((zextImm_toNat nnn).trans htarget)
  have hexec : exec (.jp nnn) s = .next s := congrArg (fun target => Host.Outcome.next (jumpTo target s)) hpc
  exact run_of_step_self (M := Sys2Proof.core) ((step_eq_exec hfetch (decode_encode rfl)).trans hexec) k

/-- Settles O14: the search for a pressed key finds none, and Fx0A then completes without a write. -/
theorem keyWaitStallsWithoutFault : Obligations.KeyWaitStallsWithoutFault := by
  intro k s x hfetch hkeys
  have hnone : firstPressed s = none := firstPressed_none.2 fun j _ => hkeys j
  have hexec : exec (.ldVxK x) s = .next s := execLdVxK_next.2 (.inl ⟨hnone, rfl⟩)
  exact run_of_step_self (M := Sys2Proof.core) ((step_eq_exec hfetch (decode_encode rfl)).trans hexec) k

/-! ### Bytes copied into memory -/

/-- Inside memory, copying bytes is the run of byte writes in address order. -/
theorem storeBytes_eq_load {base : Nat} {bs : List Byte} {s : State} (h : base + bs.length ≤ memSize) :
    storeBytes base bs s = .done () { s with mem := s.mem.load base bs } := by
  induction bs generalizing base s with
  | nil => rfl
  | cons b bs ih =>
    rw [List.length_cons] at h
    have hwrite : memWrite base b s = .ok { s with mem := s.mem.write base b } := memWrite_ok.2 ⟨by omega, rfl⟩
    rw [storeBytes, hwrite]
    exact ih (by omega)

/-- What copied bytes leave: the canonical form, the bytes from `base` up, and every other byte as it was. -/
theorem load_wf_and_read {m : Memory} (hwf : m.wf = true) {base : Nat} {bs : List Byte}
    (h : base + bs.length ≤ memSize) :
    (m.load base bs).wf = true ∧ ∀ a, (m.load base bs).read a =
      if base ≤ a ∧ a < base + bs.length then bs.getD (a - base) 0 else m.read a := by
  obtain ⟨-, -, hmem⟩ := storeBytes_done (storeBytes_eq_load (s := { State.reset with mem := m }) h)
  exact hmem hwf

/-! ### Construction (R240 to R244) -/

theorem fontOf_length (v : FontVariant) : (fontOf v).length = 80 := by
  cases v <;> rfl

/-- Past the font, an unlisted byte is zero. -/
theorem unlisted_of_ge {a : Nat} (h : 80 ≤ a) : unlisted a = 0 :=
  List.getD_eq_default _ _ h

/-- The memory that construction leaves: the font at 0 and the image at 0x200. -/
def constructedMemory (cfg : Config) (image : List Byte) : Memory :=
  (Memory.load [] 0 (fontOf cfg.font)).load 0x200 image

/-- The state that construction leaves when it accepts the image. -/
def constructed (cfg : Config) (image : List Byte) (seed : Nat) : State :=
  { State.reset with mem := constructedMemory cfg image, prng := { seed := seed, drawn := 0 }, cfg := cfg }

theorem construct_of_fits {image : List Byte} (h : image.length ≤ maxImage) (cfg : Config) (seed : Nat) :
    construct cfg image seed = .ok (constructed cfg image seed) :=
  if_neg (Nat.not_lt.2 h)

theorem construct_of_oversized {image : List Byte} (h : maxImage < image.length) (cfg : Config) (seed : Nat) :
    construct cfg image seed = .error (.addressing 0x1000) :=
  if_pos h

theorem construct_ok {cfg : Config} {image : List Byte} {seed : Nat} {s : State} :
    construct cfg image seed = .ok s ↔ image.length ≤ maxImage ∧ s = constructed cfg image seed := by
  rcases Nat.lt_or_ge maxImage image.length with h | h
  · rw [construct_of_oversized h]
    exact ⟨nofun, fun ⟨hfits, _⟩ => absurd h (Nat.not_lt.2 hfits)⟩
  · rw [construct_of_fits h, Except.ok.injEq]
    exact ⟨fun hs => ⟨h, hs.symm⟩, fun ⟨_, hs⟩ => hs.symm⟩

theorem fontOf_getD_of_ge (v : FontVariant) {a : Nat} (h : 80 ≤ a) : (fontOf v).getD a 0 = 0 :=
  List.getD_eq_default _ _ ((fontOf_length v).trans_le h)

/-- The font alone, before the image is copied. -/
theorem fontMemory_wf_and_read (v : FontVariant) :
    (Memory.load [] 0 (fontOf v)).wf = true ∧ ∀ a, (Memory.load [] 0 (fontOf v)).read a = (fontOf v).getD a 0 := by
  have hinside : 0 + (fontOf v).length ≤ memSize := by rw [fontOf_length]; decide
  obtain ⟨hwf, hread⟩ := load_wf_and_read (m := []) rfl hinside
  refine ⟨hwf, fun a => (hread a).trans ?_⟩
  rw [fontOf_length]
  rcases Nat.lt_or_ge a 80 with ha | ha
  · rw [if_pos ⟨Nat.zero_le a, by omega⟩, Nat.sub_zero]
  · rw [if_neg (by omega), fontOf_getD_of_ge v ha]
    exact unlisted_of_ge ha

section
variable {image : List Byte} (h : image.length ≤ maxImage) (cfg : Config)
include h

theorem constructedMemory_wf : (constructedMemory cfg image).wf = true :=
  (load_wf_and_read (fontMemory_wf_and_read cfg.font).1 (Nat.add_le_add_left h 0x200)).1

theorem constructedMemory_read (a : Nat) : (constructedMemory cfg image).read a =
    if 0x200 ≤ a ∧ a < 0x200 + image.length then image.getD (a - 0x200) 0 else (fontOf cfg.font).getD a 0 := by
  obtain ⟨hwf, hread⟩ := fontMemory_wf_and_read cfg.font
  rw [← hread]
  exact (load_wf_and_read hwf (Nat.add_le_add_left h 0x200)).2 a

/-- Below 0x200 stand the font and the zeros after it. -/
theorem constructed_read_low (seed : Nat) {a : Nat} (ha : a < 0x200) :
    (constructed cfg image seed).mem.read a = (fontOf cfg.font).getD a 0 :=
  (constructedMemory_read h cfg a).trans (if_neg fun hin => Nat.not_lt.2 hin.1 ha)

/-- From 0x200 up stand the image and the zeros after it. -/
theorem constructed_read_image (seed : Nat) {a : Nat} (ha : 0x200 ≤ a) :
    (constructed cfg image seed).mem.read a = image.getD (a - 0x200) 0 := by
  refine (constructedMemory_read h cfg a).trans ?_
  by_cases hend : a < 0x200 + image.length
  · exact if_pos ⟨ha, hend⟩
  · rw [if_neg fun hin => hend hin.2, fontOf_getD_of_ge cfg.font (by omega), List.getD_eq_default _ _ (by omega)]

end

/-! ### The invariant at reset -/

/-- An empty call stack meets STACK_LIMIT, whatever it is. -/
theorem inv_of_stack_nil {s : State} (hmem : s.mem.wf = true) (hstack : s.stack = []) (hpc : s.pc.toNat ≤ 0x10FE) :
    Inv s where
  mem_wf := hmem
  stack_le n _ := by rw [hstack]; exact Nat.zero_le n
  stack_addr v hv := by rw [hstack] at hv; exact absurd hv List.not_mem_nil
  pc_le := hpc

/-- Settles O15: memory lists nothing and the stack is empty. -/
theorem resetMeetsInvariant : Obligations.ResetMeetsInvariant :=
  inv_of_stack_nil rfl rfl (by decide)

/-- Settles O18: construction writes the font and the image inside memory, and the stack is empty. -/
theorem constructionMeetsInvariant : Obligations.ConstructionMeetsInvariant := by
  intro cfg image seed s _ hs
  obtain ⟨hfits, rfl⟩ := construct_ok.1 hs
  exact inv_of_stack_nil (constructedMemory_wf hfits cfg) rfl (by decide : State.reset.pc.toNat ≤ 0x10FE)

/-! ### What construction leaves and what it refuses -/

@[simp] theorem readV_reset (x : Reg) : readV x State.reset = 0 := by
  simp [readV, State.reset]

@[simp] theorem keyAt_reset (k : Nat) : keyAt State.reset.keys k = false :=
  List.getElem?_getD_replicate_default_eq false 16 k

/-- Settles O56: the registers, screen and keypad are the reset state's, and memory holds the font and the image. -/
theorem constructionLeavesResetValues : Obligations.ConstructionLeavesResetValues := by
  intro cfg image seed hfits
  refine ⟨constructed cfg image seed, construct_of_fits hfits cfg seed, rfl, readV_reset, rfl, rfl, rfl, rfl,
    pixel_blank, keyAt_reset, rfl, rfl, fun a ha => ?_, fun a hlo hhi => ?_, fun a hlo _ => ?_⟩
  · have hlength : a < (fontOf cfg.font).length := by rw [fontOf_length]; exact ha
    rw [constructed_read_low hfits cfg seed (by omega), List.getD_eq_getElem _ _ hlength,
      List.getElem?_eq_getElem hlength]
  · rw [constructed_read_low hfits cfg seed hhi, fontOf_getD_of_ge cfg.font hlo]
  · exact constructed_read_image hfits cfg seed hlo

/-- After construction with the empty image the fetch at 0x200 reads two zero bytes. -/
theorem fetch16_constructed_nil (cfg : Config) (seed : Nat) : fetch16 (constructed cfg [] seed) = .ok 0x0000 := by
  have hzero {a : Nat} (ha : 0x200 ≤ a) : (constructed cfg [] seed).mem.read a = 0 :=
    constructed_read_image (Nat.zero_le _) cfg seed ha
  have hpc : (constructed cfg [] seed).pc.toNat = 0x200 := rfl
  rw [fetch16_ok, hpc, hzero (by decide), hzero (by decide)]
  decide

/-- The word 0x0000 is no instruction, whatever the configuration (30_encoding R76). -/
theorem decode_zero (cfg : Config) : decode cfg 0x0000 = .error (.unrecognised 0x0000) := rfl

/-- Settles O57: the length decides between the two answers, and the empty image leaves 0x0000 to be fetched. -/
theorem oversizedImageIsRefused : Obligations.OversizedImageIsRefused := by
  intro cfg image seed
  refine ⟨fun hlong => construct_of_oversized hlong cfg seed, fun hfits => ?_, fun s hs => ?_⟩
  · exact ⟨_, construct_of_fits hfits cfg seed, fun a ha _ => constructed_read_image hfits cfg seed ha⟩
  · obtain ⟨-, rfl⟩ := construct_ok.1 hs
    exact step_of_decode_error (fetch16_constructed_nil cfg seed) (decode_zero cfg)

end Sys2Proof.Machine
